-- ==== Sys2Proof/Word.lean ====
section
/-! DEFINITION. The words of the block and the plain data its state, its operands and its environment are made of:
bytes, selectors, the 8-byte descriptor record, a slot, the events LOAD issues, the answers the environment gives.
Only types stand here; everything computed on them stands in Decode.lean or under Machine/. -/

namespace Sys2Proof

/-- A byte (R8: a natural below 256). -/
abbrev Byte := BitVec 8

/-- A segment selector, an opaque 16-bit value (R64). -/
abbrev Selector := BitVec 16

/-- A descriptor record: exactly 8 bytes, `b0` at the lowest offset (R60). -/
structure Entry where
  b0 : Byte
  b1 : Byte
  b2 : Byte
  b3 : Byte
  b4 : Byte
  b5 : Byte
  b6 : Byte
  b7 : Byte
  deriving DecidableEq, Repr, Inhabited

/-- A slot of the table: `none` is the spec's `unwritten`, which holds no value (R26). -/
abbrev Slot := Option Entry

/-- The Descriptor Table, SLOT[0] to SLOT[15] (R26). -/
abbrev Slots := Vector Slot 16

/-- The segment registers LOAD reloads with a data move (R33). -/
inductive Seg where
  | ds
  | es
  | ss
  | gs
  deriving DecidableEq, Repr, Inhabited

/-- What the block issues to the CPU (R33). -/
inductive Event where
  /-- The table-register load from the record `bytes` at `addr`. -/
  | lgdt (addr : Nat) (bytes : List Byte)
  /-- The control transfer that adopts the code selector. -/
  | farjmp (sel : Selector)
  /-- The reload of one segment register. -/
  | movseg (seg : Seg) (sel : Selector)
  deriving DecidableEq, Repr, Inhabited

/-- The CPU's answer to LOAD's sequence: OK, or a fault at sub-step `k`, 0 to 5 (R132). -/
inductive Verdict where
  | ok
  | fault (k : Fin 6)
  deriving DecidableEq, Repr, Inhabited

/-- The allocator's two answers to one INIT, the table's first; `none` is `Fail` (R100). -/
structure AllocPair where
  table : Option Nat
  reg : Option Nat
  deriving DecidableEq, Repr, Inhabited

/-- An activation record: what the CPU adopted at a LOAD (R31). -/
structure Activation where
  gdtrLimit : BitVec 16
  gdtrAddr : Nat
  cs : Selector
  ds : Selector
  es : Selector
  ss : Selector
  gs : Selector
  snap : Slots
  deriving DecidableEq, Repr, Inhabited

end Sys2Proof
end

