-- ==== Sys2Proof/Config.lean ====
section
/-! DEFINITION. The block's parameters (R5, R6), as data a state carries, and the free values: what the environment
supplies and no rule constrains. A free value is an opaque constant applied to the state's draw counter, so no proof
can learn anything of it. -/

namespace Sys2Proof

/-- ADDR_BYTES, the width of `addr: pointer`: OPEN in the spec, 4 or 8 (R5, R6). -/
inductive AddrBytes where
  | four
  | eight
  deriving DecidableEq, Repr, Inhabited

/-- The number ADDR_BYTES stands for. -/
def AddrBytes.n : AddrBytes → Nat
  | .four => 4
  | .eight => 8

/-- The number of addresses of system memory, 2^(8·ADDR_BYTES) (R40). -/
def AddrBytes.space (w : AddrBytes) : Nat := 2 ^ (8 * w.n)

/-- REG_BYTES = 2 + ADDR_BYTES (R5). -/
def AddrBytes.regBytes (w : AddrBytes) : Nat := 2 + w.n

/-- DATA_RELOAD_ORDER: OPEN in the spec, one of the six permutations of (DS, ES, SS) (R5, R134). -/
inductive ReloadOrder where
  | dsEsSs
  | dsSsEs
  | esDsSs
  | esSsDs
  | ssDsEs
  | ssEsDs
  deriving DecidableEq, Repr, Inhabited

/-- The parameters fixed for one machine. -/
structure Config where
  addrBytes : AddrBytes
  reloadOrder : ReloadOrder
  deriving DecidableEq, Repr, Inhabited

/-- ENTRIES (R5). -/
abbrev entries : Nat := 16

/-- ENTRY_BYTES (R5). -/
abbrev entryBytes : Nat := 8

/-- TABLE_BYTES = ENTRIES × ENTRY_BYTES = 128 (R5). -/
abbrev tableBytes : Nat := entries * entryBytes

/-- FREE VALUE: the allocator's answers to the `n`-th draw (R100, log entry 5). Machine/Ops.lean keeps of it what
meets the duties of R48. -/
opaque Config.freeAlloc : Nat → AllocPair

/-- FREE VALUE: the byte the allocator left at an address of the table region it handed out at the `n`-th draw (R42,
log entry 8). -/
opaque Config.leftByte : Nat → Nat → Byte

/-- FREE VALUE: CPU_VERDICT, which sees the event sequence and the table (R132, log entry 6). -/
opaque Config.cpuVerdict : Nat → List Event → Slots → Verdict

/-- FREE VALUE: what ACTIVE holds after a CPU fault (R133, log entry 7). -/
opaque Config.activeAfterFault : Nat → Option Activation

end Sys2Proof
end

