-- ==== Sys2Proof/Syntax.lean ====
section
/-! DEFINITION. The commands as syntax: `Instr`, one constructor per row of the opcode table, operands at the types R67
gives them; and `Command`, the record presented at the block's interface before its operands are typed (R66). -/

namespace Sys2Proof

/-- The block's commands (R65, R66) and the two reserved OPs (R69). -/
inductive Instr where
  /-- ENCODE, OP 000 (R82). -/
  | encode (base limit : Nat) (access gran : Byte)
  /-- FMTREG, OP 001 (R122). The operand is below 2^(8·ADDR_BYTES): WellFormed.lean. -/
  | fmtreg (addr : Nat)
  /-- INIT, OP 010 (R100). -/
  | init
  /-- INSTALL, OP 011 (R101). -/
  | install (index : Int) (base limit : Nat) (access gran : Byte)
  /-- READSLOT, OP 100 (R102). -/
  | readslot (index : Int)
  /-- LOAD, OP 101 (R130). -/
  | load (codeSel dataSel tlsSel : Selector)
  /-- The reserved OP 110 (R69). -/
  | reserved110
  /-- The reserved OP 111 (R69). -/
  | reserved111
  deriving DecidableEq, Repr, Inhabited

/-- A command at the interface: OP, bits 2:0 of the command word, and the operands in the order R66 lists them, each
still an integer (R66, R70). The source gives no binary layout of the operands, and the model invents none
(DESIGN CHOICE, safe: log entry 2). -/
structure Command where
  op : BitVec 3
  operands : List Int
  deriving DecidableEq, Repr, Inhabited

/-- Why a record is no command: its operands are not of the types R67 gives them (U14). -/
inductive OperandError where
  /-- Not as many operands as the OP names (R66). -/
  | arity
  /-- A negative value for an operand other than index (R67, R70). -/
  | negative
  /-- A value wider than its operand's type (R67). -/
  | tooWide
  deriving DecidableEq, Repr, Inhabited

/-- What the environment presents to the block next: a command (R22), or reset, the start of a boot (R170). -/
inductive Input where
  | reset
  | command (c : Command)
  deriving DecidableEq, Repr, Inhabited

end Sys2Proof
end

