-- ==== Sys2Proof/Machine/State.lean ====
section
/-! DEFINITION. The machine's state as plain data. `Block` is the spec's block state, one field per row of R20 and
nothing else. Around it `State` holds what the spec gives the machine outside the block: the parameters, system
memory (R40), the commands the environment issues and the position (R22), the response (R35), and the environment's
answers (R10's draws). -/

namespace Sys2Proof.Machine

/-- PHASE, the lifecycle state (R24). -/
inductive Phase where
  | uninit
  | allocated
  | activated
  deriving DecidableEq, Repr, Inhabited

/-- A fatal fault (R25, R150). E_CPU carries the sub-step `k` recorded as its information (R133). -/
inductive Fatal where
  | eAlloc
  | eCpu (k : Fin 6)
  deriving DecidableEq, Repr, Inhabited

/-- The reason of a rejection (R150, codes 3 to 7). -/
inductive Rejection where
  | illegal
  | notAlloc
  | reinit
  | index
  | unwritten
  deriving DecidableEq, Repr, Inhabited

/-- The 3-bit status of R150, by name. Its numbers are in Flags.lean. -/
inductive Status where
  | ok
  | fatal (f : Fatal)
  | rejected (r : Rejection)
  deriving DecidableEq, Repr, Inhabited

/-- The response of a command that steps (R35). -/
structure Response where
  status : Status
  result : List Byte
  deriving DecidableEq, Repr, Inhabited

/-- GDTR_REC, the Table Register (R29). -/
structure GdtrRec where
  limit : BitVec 16
  addr : Nat
  deriving DecidableEq, Repr, Inhabited

/-- The block's state: the nine fields of R20. -/
structure Block where
  /-- PHASE (R24). -/
  phase : Phase
  /-- FAULT, `none` for NONE (R25). -/
  fault : Option Fatal
  /-- REJECTS (R30). -/
  rejects : BitVec 8
  /-- SLOT[0..15] (R26). -/
  slots : Slots
  /-- TABLE_ADDR (R27). -/
  tableAddr : Option Nat
  /-- REG_ADDR (R28). -/
  regAddr : Option Nat
  /-- GDTR_REC (R29). -/
  gdtrRec : Option GdtrRec
  /-- ACTIVE (R31). -/
  active : Option Activation
  /-- EVENTS, oldest first (R33). -/
  events : List Event
  deriving DecidableEq, Repr, Inhabited

/-- Every field at the value of R34. -/
def Block.reset : Block where
  phase := .uninit
  fault := none
  rejects := 0
  slots := Vector.replicate 16 none
  tableAddr := none
  regAddr := none
  gdtrRec := none
  active := none
  events := []

/-- System memory: address and byte pairs, addresses strictly rising. An unlisted address, one the block never owned,
holds no value (DESIGN CHOICE, safe there: log entry 8). -/
abbrev Memory := List Host.Cell

/-- What an unlisted address reads as: no value (log entry 8). -/
def Memory.unlisted : Option Byte := none

/-- The environment's answers, the model's own field. An answer known beforehand waits in its queue; where the queue
is empty the answer is a free value of Config.lean at the counter `draws` (DESIGN CHOICE: log entries 5 to 8, 16). -/
structure Env where
  allocs : List AllocPair
  verdicts : List Verdict
  draws : Nat
  deriving DecidableEq, Repr, Inhabited

structure State where
  /-- The parameters of R5. No step changes them. -/
  cfg : Config
  /-- The block's state (R20). -/
  block : Block
  /-- System memory (R40). -/
  mem : Memory
  /-- What the environment presents next, the head first (R22, R170; DESIGN CHOICE: log entry 3). -/
  pending : List Input
  /-- The position in the command sequence (R22). -/
  pos : Nat
  /-- The response of the last command that stepped (R35; DESIGN CHOICE: log entry 11). -/
  resp : Option Response
  /-- The environment's answers. -/
  env : Env
  deriving DecidableEq, Repr, Inhabited

/-- The ways a step can stop for good. -/
inductive Fault where
  /-- `no step`: FAULT ≠ NONE (R153). Every meaning and `step` raise it. Exact: the spec's stuck state (U15). -/
  | halted
  /-- Raised by INSTALL and LOAD where PHASE is not UNINIT and the register they need is `none`: a state that no run
  reaches (R24, R27 to R29). Safe. -/
  | noTable
  /-- Raised by INSTALL where the slot's bytes leave the address space (R40): only where TABLE_ADDR breaks R48's first
  duty, which no run reaches. Safe. -/
  | outsideMemory
  deriving DecidableEq, Repr

/-- The ways a step can be refused. -/
inductive Refusal where
  /-- An arm of `exec` with no meaning. None is left. -/
  | notModelled (mnemonic : String)
  /-- Raised by `step` on a record whose operands are not of their types, and by FMTREG on an instruction that is not
  well-formed: "cannot be written as an operand" (R67, U14). Exact. -/
  | illTyped (e : OperandError)
  /-- Raised by INIT where the queued allocator answer breaks a duty of R48: the environment has no such move
  (log entry 5). Safe. -/
  | allocatorDuty
  deriving DecidableEq, Repr

/-- The reset state of a machine with the parameters `c` (R34, R170). -/
def State.resetWith (c : Config) : State where
  cfg := c
  block := Block.reset
  mem := []
  pending := []
  pos := 0
  resp := none
  env := ⟨[], [], 0⟩

/-- The machine right after reset. The spec leaves both parameters OPEN; the values here are those of its test vectors
(95_test_vectors.md), a DESIGN CHOICE no statement rests on (log entry 1). -/
def State.reset : State := State.resetWith ⟨.four, .dsEsSs⟩

end Sys2Proof.Machine
end

