-- ==== Sys2Proof/Machine/Flags.lean ====
section
/-! DEFINITION. The block has no condition codes (R23). Its sticky outcomes are FAULT and REJECTS: this file holds their
numbers, the status codes of R150, and the bit a rejection sets (R30). -/

namespace Sys2Proof.Machine

/-- The encoding of PHASE (R24). -/
def phaseCode : Phase → Nat
  | .uninit => 0
  | .allocated => 1
  | .activated => 2

/-- The encoding of FAULT (R25). -/
def faultCode : Option Fatal → Nat
  | none => 0
  | some .eAlloc => 1
  | some (.eCpu _) => 2

/-- The code of a rejection (R150). -/
def rejectionCode : Rejection → Nat
  | .illegal => 3
  | .notAlloc => 4
  | .reinit => 5
  | .index => 6
  | .unwritten => 7

/-- STATUS, the 3-bit code of R150. -/
def statusCode : Status → BitVec 3
  | .ok => 0
  | .fatal f => BitVec.ofNat 3 (faultCode (some f))
  | .rejected r => BitVec.ofNat 3 (rejectionCode r)

/-- REJECTS | (1 << code) (R30). -/
def setReject (r : Rejection) (rejects : BitVec 8) : BitVec 8 := rejects ||| (1#8 <<< rejectionCode r)

end Sys2Proof.Machine
end

