-- ==== Sys2Proof/Machine/Operands.lean ====
section
/-! DEFINITION. The operand forms and the two pure datapaths: bit slices, masks and byte order (R7, R8), the descriptor
encoder and its reference decoder (R80 to R83), the register formatter (R120, R121), the index check (R103), the
table image (R63). -/

namespace Sys2Proof.Machine

/-- `v[hi:lo]` (R7). -/
def slice (v hi lo : Nat) : Nat := (v >>> lo) % 2 ^ (hi - lo + 1)

/-- `mask_N(v)` (R7). -/
def mask (n v : Nat) : Nat := v % 2 ^ n

/-- A byte holding an 8-bit value. -/
def byteOf (v : Nat) : Byte := BitVec.ofNat 8 v

/-- `le_N(v)`, the N bytes of v, least significant first (R8). -/
def le : Nat → Nat → List Byte
  | 0, _ => []
  | n + 1, v => byteOf (slice v 7 0) :: le n (v >>> 8)

/-- `from_le(bs)`, the sum of `bs[k] · 2^(8k)` (R8). -/
def fromLe : List Byte → Nat
  | [] => 0
  | b :: bs => b.toNat + 2 ^ 8 * fromLe bs

/-- The record as a byte sequence, byte 0 first (R60). -/
def entryBytesOf (e : Entry) : List Byte := [e.b0, e.b1, e.b2, e.b3, e.b4, e.b5, e.b6, e.b7]

/-- `word64(bs)`: the 64-bit value a little-endian reader sees (R8). -/
def word64 (e : Entry) : Nat := fromLe (entryBytesOf e)

/-- The encoding function, byte by byte as R80 writes it. -/
def encodeEntry (base limit : Nat) (access gran : Byte) : Entry :=
  let b := mask 32 base
  let l := mask 20 limit
  { b0 := byteOf (slice l 7 0)
    b1 := byteOf (slice l 15 8)
    b2 := byteOf (slice b 7 0)
    b3 := byteOf (slice b 15 8)
    b4 := byteOf (slice b 23 16)
    b5 := access
    b6 := byteOf ((slice gran.toNat 7 4 <<< 4) ||| slice l 19 16)
    b7 := byteOf (slice b 31 24) }

/-- What the reference decoder answers (R83). -/
structure Fields where
  base : Nat
  limit : Nat
  access : Byte
  gflags : Byte
  deriving DecidableEq, Repr

/-- The reference decoder `decode(bs)` of R83, a model-side function and no command. -/
def decodeEntry (e : Entry) : Fields where
  base := e.b2.toNat ||| (e.b3.toNat <<< 8) ||| (e.b4.toNat <<< 16) ||| (e.b7.toNat <<< 24)
  limit := e.b0.toNat ||| (e.b1.toNat <<< 8) ||| ((e.b6.toNat &&& 0x0F) <<< 16)
  access := e.b5
  gflags := e.b6 &&& 0xF0#8

/-- REG_LIMIT = TABLE_BYTES + 1 = 129 (R120). -/
def regLimit : BitVec 16 := BitVec.ofNat 16 (tableBytes + 1)

/-- The byte image of a register record, packed (R62). -/
def gdtrImage (w : AddrBytes) (g : GdtrRec) : List Byte := le 2 g.limit.toNat ++ le w.n g.addr

/-- `fmtreg(addr)` (R121). -/
def fmtreg (w : AddrBytes) (addr : Nat) : List Byte := le 2 regLimit.toNat ++ le w.n addr

/-- `in_range(index)`: 0 ≤ index ≤ 15, as mathematical integers (R103). -/
abbrev inRange (index : Int) : Prop := 0 ≤ index ∧ index ≤ 15

/-- The slot an index names, `none` where it is out of range (R103). -/
def slotIndex (index : Int) : Option (Fin 16) :=
  if h : inRange index then some ⟨index.toNat, by omega⟩ else none

/-- The address of slot `i`: TABLE_ADDR + 8·i (R63, R101). -/
def slotAddr (tableAddr : Nat) (i : Fin 16) : Nat := tableAddr + 8 * i.val

/-- The table image: the slots laid end to end, 128 bytes, a byte of an `unwritten` slot holding no value (R63). -/
def tableImage (t : Slots) : List (Option Byte) :=
  t.toList.flatMap fun
    | some e => (entryBytesOf e).map some
    | none => List.replicate entryBytes none

/-- The three data reloads of LOAD in the order of DATA_RELOAD_ORDER (R130, R134). -/
def reloadSegs : ReloadOrder → Seg × Seg × Seg
  | .dsEsSs => (.ds, .es, .ss)
  | .dsSsEs => (.ds, .ss, .es)
  | .esDsSs => (.es, .ds, .ss)
  | .esSsDs => (.es, .ss, .ds)
  | .ssDsEs => (.ss, .ds, .es)
  | .ssEsDs => (.ss, .es, .ds)

/-- LOAD's six events, in the order of R130. -/
def loadSeq (c : Config) (regAddr : Nat) (g : GdtrRec) (codeSel dataSel tlsSel : Selector) : List Event :=
  let (s1, s2, s3) := reloadSegs c.reloadOrder
  [.lgdt regAddr (fmtreg c.addrBytes g.addr), .farjmp codeSel,
    .movseg s1 dataSel, .movseg s2 dataSel, .movseg s3 dataSel, .movseg .gs tlsSel]

/-- What ACTIVE becomes at a successful LOAD (R130, R31). -/
def activation (g : GdtrRec) (codeSel dataSel tlsSel : Selector) (t : Slots) : Activation where
  gdtrLimit := g.limit
  gdtrAddr := g.addr
  cs := codeSel
  ds := dataSel
  es := dataSel
  ss := dataSel
  gs := tlsSel
  snap := t

end Sys2Proof.Machine
end

