-- ==== Sys2Proof/Machine/Ops.lean ====
section
/-! DEFINITION. The shared operations: memory (R9, R40), the outcomes of a command (R10: return, reject, raise, no step),
the environment's draws (R100, R132, R133), reset (R170). -/

namespace Sys2Proof.Machine

/-! ### System memory -/

/-- The canonical form: addresses strictly rising. No entry can equal what an unlisted address reads as, since that
is no value. -/
abbrev Memory.wf (m : Memory) : Prop := m.Pairwise fun x y => x.1 < y.1

/-- One byte of memory; an unlisted address holds no value (log entry 8). -/
def Memory.get : Memory → Nat → Option Byte
  | [], _ => Memory.unlisted
  | (k, v) :: m, a => if k = a then some v else Memory.get m a

/-- Store one byte, keeping the canonical form. -/
def Memory.set : Memory → Nat → Byte → Memory
  | [], a, b => [(a, b)]
  | (k, v) :: m, a, b =>
    if a < k then (a, b) :: (k, v) :: m
    else if a = k then (a, b) :: m
    else (k, v) :: Memory.set m a b

/-- `MemRead(addr, n)`: the bytes at addr to addr + n − 1 (R9). The block never reads memory (R40): statements use
it. -/
def Memory.read (m : Memory) (a : Nat) : Nat → Option (List Byte)
  | 0 => some []
  | n + 1 =>
    match m.get a, Memory.read m (a + 1) n with
    | some b, some bs => some (b :: bs)
    | _, _ => none

/-- `MemWrite(addr, n, bs)`: `bs[k]` at addr + k (R9). -/
def Memory.write (m : Memory) (a : Nat) : List Byte → Memory
  | [] => m
  | b :: bs => Memory.write (m.set a b) (a + 1) bs

/-! ### Outcomes of a command (R10) -/

/-- What a meaning answers. -/
abbrev Result := Host.Outcome State Fault Refusal

/-- Every command that steps returns one response (R35). -/
def respond (st : Status) (result : List Byte) (s : State) : State :=
  { s with resp := some ⟨st, result⟩ }

/-- `return (OK, result)` (R10). -/
def accept (result : List Byte) (s : State) : State := respond .ok result s

/-- `reject <Code>`: REJECTS only, and an empty result (R10, R30, R151). -/
def reject (r : Rejection) (s : State) : State :=
  respond (.rejected r) [] { s with block := { s.block with rejects := setReject r s.block.rejects } }

/-- `raise <Fault>`: taking a fatal fault. FAULT records it with its information, the code is returned, and the block
takes no further command (R10, R151, R155). There is no handler and no return from it (R155, R156). -/
def raise (f : Fatal) (s : State) : State :=
  respond (.fatal f) [] { s with block := { s.block with fault := some f } }

/-- `if FAULT != NONE: no step` (R153), the first check of every command (R154). -/
def whenRunning (s : State) (k : Result) : Result :=
  if s.block.fault = none then k else .fault .halted

/-! ### The environment's draws -/

/-- The duties of R48 that bear on the two answers: each region lies in the address space, and the two do not
overlap. -/
def allocDuties (w : AddrBytes) (a : AllocPair) : Bool :=
  match a.table, a.reg with
  | some t, some r =>
    decide (t + tableBytes ≤ w.space ∧ r + w.regBytes ≤ w.space ∧ (t + tableBytes ≤ r ∨ r + w.regBytes ≤ t))
  | some t, none => decide (t + tableBytes ≤ w.space)
  | none, some r => decide (r + w.regBytes ≤ w.space)
  | none, none => true

/-- A free answer, kept where it meets the duties; elsewhere the allocator answered Fail. Every answer R100 allows is
some value of it. -/
def boundAlloc (w : AddrBytes) (a : AllocPair) : AllocPair :=
  if allocDuties w a then a else ⟨none, none⟩

/-- `draw ta <- Alloc(TABLE_BYTES)` and `draw ra <- Alloc(REG_BYTES)` (R100). `none`: the queued answer breaks a duty
of R48, a move the environment does not have. -/
def allocAnswer (s : State) : Option AllocPair :=
  match s.env.allocs with
  | a :: _ => if allocDuties s.cfg.addrBytes a then some a else none
  | [] => some (boundAlloc s.cfg.addrBytes (Config.freeAlloc s.env.draws))

/-- The allocator's answers are used up. -/
def takeAlloc (s : State) : State :=
  { s with env := { s.env with allocs := s.env.allocs.tail, draws := s.env.draws + 1 } }

/-- The 128 bytes the allocator left in the table region at `ta`, a draw of any byte values (R42, U3). Irreducible, so
that no proof spells them out; `leftBytes_length` and `receiveTable_get` say all there is to say. -/
@[irreducible] def leftBytes (n ta : Nat) : List Byte := (List.range tableBytes).map fun k => Config.leftByte n (ta + k)

/-- The allocator hands out the table region with whatever it left there (R42). The block writes nothing and learns
nothing by it. -/
def receiveTable (ta : Nat) (s : State) : State := { s with mem := s.mem.write ta (leftBytes s.env.draws ta) }

/-- `draw v <- CPU_VERDICT(seq, SLOT)` (R132). -/
def verdictAnswer (s : State) (seq : List Event) : Verdict :=
  match s.env.verdicts with
  | v :: _ => v
  | [] => Config.cpuVerdict s.env.draws seq s.block.slots

/-- The CPU's verdict is used up. -/
def takeVerdict (s : State) : State :=
  { s with env := { s.env with verdicts := s.env.verdicts.tail, draws := s.env.draws + 1 } }

/-- An unspecified activation record still is one: its ADDR has 8·ADDR_BYTES bits (R31, R29). -/
def boundActivation (w : AddrBytes) (a : Activation) : Activation :=
  { a with gdtrAddr := mask (8 * w.n) a.gdtrAddr }

/-- The unspecified value ACTIVE holds after a CPU fault (R133). -/
def freeActive (s : State) : Option Activation :=
  (Config.activeAfterFault s.env.draws).map (boundActivation s.cfg.addrBytes)

/-! ### Reset and fetching -/

/-- Reset: every block field at its value of R34; memory is not touched (R170). The position starts at 0 (R22), and no
command has answered yet. The parameters and the environment's answers stay (DESIGN CHOICE: log entry 15). -/
def powerReset (s : State) : State :=
  { s with block := Block.reset, pos := 0, resp := none }

/-- The command leaves the queue and the position moves on (R22). -/
def advance (s : State) : State :=
  { s with pending := s.pending.tail, pos := s.pos + 1 }

/-- Reset leaves the queue. -/
def dropInput (s : State) : State := { s with pending := s.pending.tail }

/-- Put a command where the next step takes it from. -/
def presentCommand (c : Command) (s : State) : State :=
  { s with pending := .command c :: s.pending.tail }

end Sys2Proof.Machine
end

