-- ==== Sys2Proof/Machine/Load.lean ====
section
/-! DEFINITION. LOAD (R130): the events it issues, and what PHASE, ACTIVE and FAULT become under the CPU's verdict. -/

namespace Sys2Proof.Machine

/-- Append to EVENTS (R10's `emit`, R33). -/
def emit (es : List Event) (s : State) : State :=
  { s with block := { s.block with events := s.block.events ++ es } }

/-- LOAD under the verdict OK (R130). -/
def loadAccepted (seq : List Event) (act : Activation) (s : State) : State :=
  accept [] (emit seq { s with block := { s.block with active := some act, phase := .activated } })

/-- LOAD under the verdict Fault(k): the events 0 to k, FAULT, and ACTIVE unspecified; PHASE stays (R133). -/
def loadFaulted (seq : List Event) (k : Fin 6) (s : State) : State :=
  raise (.eCpu k)
    (emit (seq.take (k.val + 1))
      { s with
        block := { s.block with active := freeActive s }
        env := { s.env with draws := s.env.draws + 1 } })

/-- LOAD once its register record is found: issue the sequence and act on the verdict (R130). -/
def loadWith (ra : Nat) (g : GdtrRec) (codeSel dataSel tlsSel : Selector) (s : State) : State :=
  let seq := loadSeq s.cfg ra g codeSel dataSel tlsSel
  match verdictAnswer s seq with
  | .ok => loadAccepted seq (activation g codeSel dataSel tlsSel s.block.slots) (takeVerdict s)
  | .fault k => loadFaulted seq k (takeVerdict s)

/-- LOAD (R130). Selectors are not decoded and slots are not inspected. -/
def execLoad (codeSel dataSel tlsSel : Selector) (s : State) : Result :=
  whenRunning s <|
    if s.block.phase = .uninit then .next (reject .notAlloc s)
    else
      match s.block.regAddr, s.block.gdtrRec with
      | some ra, some g => .next (loadWith ra g codeSel dataSel tlsSel s)
      | _, _ => .fault .noTable

end Sys2Proof.Machine
end

