-- ==== Sys2Proof/Machine/Pure.lean ====
section
/-! DEFINITION. The two pure commands, ENCODE (R82) and FMTREG (R122), accepted in every PHASE. -/

namespace Sys2Proof.Machine

/-- ENCODE (R82). It never rejects and never faults. -/
def execEncode (base limit : Nat) (access gran : Byte) (s : State) : Result :=
  whenRunning s (.next (accept (entryBytesOf (encodeEntry base limit access gran)) s))

/-- FMTREG (R122). An addr that does not fit in ADDR_BYTES is not an operand: its type refuses it (R67). -/
def execFmtreg (addr : Nat) (s : State) : Result :=
  whenRunning s <|
    if addr < s.cfg.addrBytes.space then .next (accept (fmtreg s.cfg.addrBytes addr) s)
    else .refused (.illTyped .tooWide)

end Sys2Proof.Machine
end

