-- ==== Sys2Proof/Machine/Reserved.lean ====
section
/-! DEFINITION. The reserved OPs 110 and 111: rejected with E_ILLEGAL (R69). -/

namespace Sys2Proof.Machine

/-- OP 110 (R69). -/
def execReserved110 (s : State) : Result := whenRunning s (.next (reject .illegal s))

/-- OP 111 (R69). -/
def execReserved111 (s : State) : Result := whenRunning s (.next (reject .illegal s))

end Sys2Proof.Machine
end

