-- ==== Sys2Proof/Machine/Table.lean ====
section
/-! DEFINITION. The commands that create, fill and read the table: INIT (R100), INSTALL (R101), READSLOT (R102). -/

namespace Sys2Proof.Machine

/-- INIT once both requests are answered (R100): the table and the register record, or E_ALLOC where either failed. The
one write the block makes is the register record; the bytes of the table region are the allocator's (R42, R46). -/
def initWith (a : AllocPair) (s : State) : State :=
  match a.table, a.reg with
  | some ta, some ra =>
    accept []
      { s with
        block := { s.block with
          tableAddr := some ta
          regAddr := some ra
          slots := Vector.replicate 16 none
          gdtrRec := some ⟨regLimit, ta⟩
          phase := .allocated }
        mem := (receiveTable ta s).mem.write ra (fmtreg s.cfg.addrBytes ta) }
  | _, _ => raise .eAlloc s

/-- INIT (R100). -/
def execInit (s : State) : Result :=
  whenRunning s <|
    if s.block.phase ≠ .uninit then .next (reject .reinit s)
    else
      match allocAnswer s with
      | none => .refused .allocatorDuty
      | some a => .next (initWith a (takeAlloc s))

/-- The slot write of INSTALL: the slot, and its 8 bytes in the table region (R101). -/
def installAt (ta : Nat) (i : Fin 16) (e : Entry) (s : State) : State :=
  { s with
    block := { s.block with slots := s.block.slots.set i (some e) }
    mem := s.mem.write (slotAddr ta i) (entryBytesOf e) }

/-- INSTALL (R101). -/
def execInstall (index : Int) (base limit : Nat) (access gran : Byte) (s : State) : Result :=
  whenRunning s <|
    if s.block.phase = .uninit then .next (reject .notAlloc s)
    else
      match slotIndex index with
      | none => .next (reject .index s)
      | some i =>
        match s.block.tableAddr with
        | none => .fault .noTable
        | some ta =>
          if slotAddr ta i + entryBytes ≤ s.cfg.addrBytes.space then
            .next (accept [] (installAt ta i (encodeEntry base limit access gran) s))
          else .fault .outsideMemory

/-- READSLOT (R102). It reads SLOT, not system memory. -/
def execReadslot (index : Int) (s : State) : Result :=
  whenRunning s <|
    if s.block.phase = .uninit then .next (reject .notAlloc s)
    else
      match slotIndex index with
      | none => .next (reject .index s)
      | some i =>
        match s.block.slots[i] with
        | none => .next (reject .unwritten s)
        | some e => .next (accept (entryBytesOf e) s)

end Sys2Proof.Machine
end

