-- ==== Sys2Proof/Machine/Dispatch.lean ====
section
/-! DEFINITION. One arm per command: the meaning of an instruction. -/

namespace Sys2Proof.Machine

def exec (i : Instr) (s : State) : Host.Outcome State Fault Refusal :=
  match i with
  | .encode base limit access gran => Sys2Proof.Machine.execEncode base limit access gran s
  | .fmtreg addr => Sys2Proof.Machine.execFmtreg addr s
  | .init => Sys2Proof.Machine.execInit s
  | .install index base limit access gran => Sys2Proof.Machine.execInstall index base limit access gran s
  | .readslot index => Sys2Proof.Machine.execReadslot index s
  | .load codeSel dataSel tlsSel => Sys2Proof.Machine.execLoad codeSel dataSel tlsSel s
  | .reserved110 => Sys2Proof.Machine.execReserved110 s
  | .reserved111 => Sys2Proof.Machine.execReserved111 s

end Sys2Proof.Machine
end

