-- ==== Sys2Proof/WellFormed.lean ====
section
/-! DEFINITION. When an instruction's operands are of the types R67 gives them. Every type but one is the constructor
argument's own; FMTREG's addr depends on the parameter ADDR_BYTES and is checked here. -/

namespace Sys2Proof

/-- The operands fit their types at the pointer width `w` (R67). -/
def Instr.wellFormed (w : AddrBytes) : Instr → Bool
  | .encode _ _ _ _ => true
  | .fmtreg addr => decide (addr < w.space)
  | .init => true
  | .install _ _ _ _ _ => true
  | .readslot _ => true
  | .load _ _ _ => true
  | .reserved110 => true
  | .reserved111 => true

end Sys2Proof
end

