-- ==== Sys2Proof/Decode.lean ====
section
/-! DEFINITION. From a command record to an instruction and back. The decoder selects on OP alone (R66, R68), takes the
operands in at their types (R67), and refuses by name what is no operand (U14). The encoder follows it. -/

namespace Sys2Proof

/-- A natural operand: base, limit (R67). Only index may be negative (R70). -/
def asNatural : Int → Except OperandError Nat
  | .ofNat n => .ok n
  | .negSucc _ => .error .negative

/-- An operand of `k` bits: access, gran, the selectors (R67: a value above the width cannot be written). -/
def asBits (k : Nat) (v : Int) : Except OperandError (BitVec k) :=
  match asNatural v with
  | .ok n => if n < 2 ^ k then .ok (BitVec.ofNat k n) else .error .tooWide
  | .error e => .error e

/-- FMTREG's addr, a natural below 2^(8·ADDR_BYTES) (R67). -/
def asAddr (w : AddrBytes) (v : Int) : Except OperandError Nat :=
  match asNatural v with
  | .ok n => if n < w.space then .ok n else .error .tooWide
  | .error e => .error e

/-- How many operands an OP names (R66). -/
def arity (op : BitVec 3) : Nat :=
  match op.toNat with
  | 0 => 4
  | 1 => 1
  | 3 => 5
  | 4 => 1
  | 5 => 3
  | _ => 0

/-- OP 000: base, limit, access, gran (R66). -/
def decodeEncode : List Int → Except OperandError Instr
  | [b, l, a, g] => do
    return .encode (← asNatural b) (← asNatural l) (← asBits 8 a) (← asBits 8 g)
  | _ => .error .arity

/-- OP 001: addr (R66). -/
def decodeFmtreg (w : AddrBytes) : List Int → Except OperandError Instr
  | [a] => do return .fmtreg (← asAddr w a)
  | _ => .error .arity

/-- OP 010: no operand (R66). -/
def decodeInit : List Int → Except OperandError Instr
  | [] => .ok .init
  | _ => .error .arity

/-- OP 011: index, base, limit, access, gran (R66). The index is any integer (R103). -/
def decodeInstall : List Int → Except OperandError Instr
  | [i, b, l, a, g] => do
    return .install i (← asNatural b) (← asNatural l) (← asBits 8 a) (← asBits 8 g)
  | _ => .error .arity

/-- OP 100: index (R66). -/
def decodeReadslot : List Int → Except OperandError Instr
  | [i] => .ok (.readslot i)
  | _ => .error .arity

/-- OP 101: code_sel, data_sel, tls_sel (R66). -/
def decodeLoad : List Int → Except OperandError Instr
  | [c, d, t] => do
    return .load (← asBits 16 c) (← asBits 16 d) (← asBits 16 t)
  | _ => .error .arity

/-- The decoder: it selects on OP alone, match = OP value, mask = 0b111 (R66). A reserved OP needs no operands and
looks at none (R69). -/
def decode (w : AddrBytes) (c : Command) : Except OperandError Instr :=
  match c.op.toNat with
  | 0 => decodeEncode c.operands
  | 1 => decodeFmtreg w c.operands
  | 2 => decodeInit c.operands
  | 3 => decodeInstall c.operands
  | 4 => decodeReadslot c.operands
  | 5 => decodeLoad c.operands
  | 6 => .ok .reserved110
  | _ => .ok .reserved111

/-- The command record of an instruction, from the table of R66. -/
def encode : Instr → Command
  | .encode b l a g => ⟨0b000#3, [b, l, a.toNat, g.toNat]⟩
  | .fmtreg a => ⟨0b001#3, [a]⟩
  | .init => ⟨0b010#3, []⟩
  | .install i b l a g => ⟨0b011#3, [i, b, l, a.toNat, g.toNat]⟩
  | .readslot i => ⟨0b100#3, [i]⟩
  | .load c d t => ⟨0b101#3, [c.toNat, d.toNat, t.toNat]⟩
  | .reserved110 => ⟨0b110#3, []⟩
  | .reserved111 => ⟨0b111#3, []⟩

/-- The record of an opcode-table word: OP is the word's bits 2:0, and the table gives the operands no bits, so each
operand the OP names is 0. -/
def tableCommand (nbits w : Nat) : Command :=
  let op := BitVec.ofNat 3 (w % 2 ^ nbits)
  ⟨op, List.replicate (arity op) 0⟩

/-- What the decoder reads from an opcode-table word. Operands of 0 fit at either pointer width. -/
def decodeTableWord (nbits w : Nat) : Option Instr :=
  match decode .four (tableCommand nbits w) with
  | .ok i => some i
  | .error _ => none

end Sys2Proof
end

