-- ==== Sys2Proof/Machine/Fetch.lean ====
section
/-! DEFINITION. What the block takes next. It has no program counter and fetches no instructions (R22): the environment
issues commands one at a time, strictly in sequence. -/

namespace Sys2Proof.Machine

/-- What a step finds at the interface. -/
inductive Fetched where
  /-- No command is presented: the block waits (R171; DESIGN CHOICE: log entry 3). -/
  | idle
  /-- Reset (R170). -/
  | reset
  /-- FAULT ≠ NONE: no command is taken (R153). -/
  | halted
  /-- The record presented is no command (R67). -/
  | illTyped (e : OperandError)
  /-- A command. -/
  | instr (i : Instr)
  deriving DecidableEq, Repr

/-- Look at the head of the inputs. Only reset gets past the halt (R153). -/
def fetch (s : State) : Fetched :=
  match s.pending with
  | .reset :: _ => .reset
  | .command c :: _ =>
    if s.block.fault = none then
      match decode s.cfg.addrBytes c with
      | .ok i => .instr i
      | .error e => .illTyped e
    else .halted
  | [] => if s.block.fault = none then .idle else .halted

end Sys2Proof.Machine
end

