-- ==== Sys2Proof/Machine/Step.lean ====
section
/-! DEFINITION. One step: the input at the head of the queue is taken, and a command runs as one atomic step (R11). -/

namespace Sys2Proof.Machine

/-- One step of the block. -/
def step (s : State) : Host.Outcome State Fault Refusal :=
  match fetch s with
  | .idle => .next s
  | .reset => .next (powerReset (dropInput s))
  | .halted => .fault .halted
  | .illTyped e => .refused (.illTyped e)
  | .instr i => exec i (advance s)

/-- The opcode-table word `w` presented as the next command. -/
def State.withFetchWord (s : State) (nbits w : Nat) : State := presentCommand (tableCommand nbits w) s

end Sys2Proof.Machine
end

