-- ==== Sys2Proof/Machine/Reading.lean ====
section
/-! DEFINITION. How x86 reads the bits the block passes through (R61, R64, R86 to R88, R124). The spec marks every one
of these as general knowledge, not in source, and no command depends on any of them (R12): nothing in exec calls this
file (log entry 10). -/

namespace Sys2Proof.Machine

/-- Bit `i` of a byte (R7). -/
def bitOf (b : Byte) (i : Nat) : Bool := b.getLsbD i

/-- Access bit 7, P, present (R61, R86). -/
def accessPresent (a : Byte) : Bool := bitOf a 7

/-- Access bits 6:5, DPL (R61, R86). -/
def accessDpl (a : Byte) : Nat := slice a.toNat 6 5

/-- Access bit 4, S: code or data, against system (R61, R86). -/
def accessCodeOrData (a : Byte) : Bool := bitOf a 4

/-- Access bits 3:0, Type (R61, R86). -/
def accessType (a : Byte) : Nat := slice a.toNat 3 0

/-- For S = 1, Type bit 3 set means code (R86). -/
def accessIsCode (a : Byte) : Bool := accessCodeOrData a && bitOf a 3

/-- A code segment's Type bit 1, readable (R86). -/
def accessReadable (a : Byte) : Bool := accessIsCode a && bitOf a 1

/-- A code segment's Type bit 2, conforming (R86). -/
def accessConforming (a : Byte) : Bool := accessIsCode a && bitOf a 2

/-- A data segment: S = 1 and Type bit 3 clear (R86). -/
def accessIsData (a : Byte) : Bool := accessCodeOrData a && !bitOf a 3

/-- A data segment's Type bit 1, writable (R86). -/
def accessWritable (a : Byte) : Bool := accessIsData a && bitOf a 1

/-- A data segment's Type bit 2, expand-down (R86). -/
def accessExpandDown (a : Byte) : Bool := accessIsData a && bitOf a 2

/-- Type bit 0, accessed (R86). R86 does not say whether its "Bit 0 is accessed" still stands under "For S = 1"; the
model reads it so and answers false for S = 0: DESIGN CHOICE, safe, log entry 18. -/
def accessAccessed (a : Byte) : Bool := accessCodeOrData a && bitOf a 0

/-- Granularity bit 7, G: the limit counts 4 KiB pages (R61, R87). -/
def granPages (g : Byte) : Bool := bitOf g 7

/-- Granularity bit 6, D/B: a 32-bit segment (R61, R87). -/
def gran32Bit (g : Byte) : Bool := bitOf g 6

/-- Granularity bit 5, L: 64-bit code (R61, R87). -/
def granLong (g : Byte) : Bool := bitOf g 5

/-- Granularity bit 4, AVL (R61, R87). -/
def granAvail (g : Byte) : Bool := bitOf g 4

/-- The effective segment limit: `l` for G = 0, `(l << 12) | 0xFFF` for G = 1 (R88). -/
def effectiveLimit (f : Fields) : Nat :=
  if granPages f.gflags then (f.limit <<< 12) ||| 0xFFF else f.limit

/-- A selector's bits 15:3, the table index (R64). -/
def selectorIndex (s : Selector) : Nat := slice s.toNat 15 3

/-- A selector's bit 2: the LDT where set, the GDT where clear (R64). -/
def selectorLdt (s : Selector) : Bool := s.getLsbD 2

/-- A selector's bits 1:0, the requested privilege level (R64). -/
def selectorRpl (s : Selector) : Nat := slice s.toNat 1 0

/-- The CPU accepts a selector with index `i` only if 8·i + 7 ≤ limit (R124). -/
def indexReachable (limit : BitVec 16) (i : Nat) : Bool := decide (8 * i + 7 ≤ limit.toNat)

/-- The conventional GDTR limit, the offset of the table's last valid byte (R124). -/
def conventionalLimit : Nat := tableBytes - 1

/-- LGDT with a 16-bit operand size uses only 24 bits of the address (R124). -/
def lgdtAddr16 (addr : Nat) : Nat := mask 24 addr

/-- The bytes LGDT reads: 10 in 64-bit mode, 6 otherwise (R124). -/
def lgdtOperandBytes (mode64 : Bool) : Nat := if mode64 then 10 else 6

end Sys2Proof.Machine
end

