-- ==== Sys2Proof/Machine/Text.lean ====
section
/-! DEFINITION. The commands as call text, one per line (R70): a reader from a line of characters to the command record
of Decode.lean, and the writer of the canonical line. Blanks around a name, an operand or the whole line are skipped
(log entry 9). The reserved OPs have no text. -/

namespace Sys2Proof.Machine

/-- A blank between tokens. -/
def isBlank (c : Char) : Bool := c == ' ' || c == '\t'

/-- Blanks off the front. -/
def trimLeft (cs : List Char) : List Char := cs.dropWhile isBlank

/-- Blanks off both ends. -/
def trim (cs : List Char) : List Char := (trimLeft (trimLeft cs).reverse).reverse

/-- The text before the first `sep` and the text after it. -/
def cutAt (sep : Char) : List Char → Option (List Char × List Char)
  | [] => none
  | c :: cs =>
    if c = sep then some ([], cs)
    else match cutAt sep cs with
      | some (a, b) => some (c :: a, b)
      | none => none

/-- The pieces between the separators. -/
def splitOn (sep : Char) : List Char → List (List Char)
  | [] => [[]]
  | c :: cs =>
    if c = sep then [] :: splitOn sep cs
    else match splitOn sep cs with
      | p :: ps => (c :: p) :: ps
      | [] => [[c]]

/-- The value of a decimal digit. -/
def decDigit (c : Char) : Option Nat :=
  if '0'.toNat ≤ c.toNat ∧ c.toNat ≤ '9'.toNat then some (c.toNat - '0'.toNat) else none

/-- The value of a hexadecimal digit, of either case. -/
def hexDigit (c : Char) : Option Nat :=
  match decDigit c with
  | some d => some d
  | none =>
    if 'a'.toNat ≤ c.toNat ∧ c.toNat ≤ 'f'.toNat then some (c.toNat - 'a'.toNat + 10)
    else if 'A'.toNat ≤ c.toNat ∧ c.toNat ≤ 'F'.toNat then some (c.toNat - 'A'.toNat + 10)
    else none

/-- A digit sequence in a base, on top of what was read so far. -/
def readDigits (base : Nat) (digit : Char → Option Nat) : Nat → List Char → Option Nat
  | acc, [] => some acc
  | acc, c :: cs =>
    match digit c with
    | some d => readDigits base digit (acc * base + d) cs
    | none => none

/-- One or more decimal digits. -/
def readDecimal : List Char → Option Nat
  | [] => none
  | c :: cs => readDigits 10 decDigit 0 (c :: cs)

/-- A numeric operand: a decimal literal, optionally preceded by `-`, or a `0x` hexadecimal literal (R70). -/
def readLiteral : List Char → Option Int
  | '0' :: 'x' :: c :: cs => (readDigits 16 hexDigit 0 (c :: cs)).map Int.ofNat
  | '-' :: cs => (readDecimal cs).map fun n => -Int.ofNat n
  | cs => (readDecimal cs).map Int.ofNat

/-- Every piece read, or none. -/
def readAll : List (List Char) → Option (List Int)
  | [] => some []
  | p :: ps =>
    match readLiteral (trim p), readAll ps with
    | some v, some vs => some (v :: vs)
    | _, _ => none

/-- The operand list between the parentheses. -/
def readOperands (cs : List Char) : Option (List Int) :=
  if cs.all isBlank then some [] else readAll (splitOn ',' cs)

/-- The spellings of R70: the call names and the mnemonics, `entry` and `install` for the same command. -/
def commandNames : List (List Char × BitVec 3) :=
  [(['e', 'n', 'c', 'o', 'd', 'e'], 0b000#3),
   (['n', 'e', 'w', '_', 'r', 'e', 'g', 'i', 's', 't', 'e', 'r'], 0b001#3),
   (['i', 'n', 'i', 't'], 0b010#3),
   (['e', 'n', 't', 'r', 'y'], 0b011#3),
   (['i', 'n', 's', 't', 'a', 'l', 'l'], 0b011#3),
   (['r', 'e', 'a', 'd', '_', 's', 'l', 'o', 't'], 0b100#3),
   (['l', 'o', 'a', 'd'], 0b101#3)] ++
  [(['E', 'N', 'C', 'O', 'D', 'E'], 0b000#3),
   (['F', 'M', 'T', 'R', 'E', 'G'], 0b001#3),
   (['I', 'N', 'I', 'T'], 0b010#3),
   (['I', 'N', 'S', 'T', 'A', 'L', 'L'], 0b011#3),
   (['R', 'E', 'A', 'D', 'S', 'L', 'O', 'T'], 0b100#3),
   (['L', 'O', 'A', 'D'], 0b101#3)]

/-- The OP of a name. -/
def opOfName (cs : List Char) : Option (BitVec 3) := commandNames.lookup cs

/-- One line of text to a command record; its operands are typed by `decode`. -/
def readLine (line : List Char) : Option Command :=
  match cutAt '(' line with
  | none => none
  | some (name, rest) =>
    match cutAt ')' rest with
    | none => none
    | some (body, tail) =>
      match opOfName (trim name), readOperands body with
      | some op, some vs => if tail.all isBlank then some ⟨op, vs⟩ else none
      | _, _ => none

/-- One line of text to an instruction at the pointer width `w`. -/
def readInstr (w : AddrBytes) (line : List Char) : Option Instr :=
  match readLine line with
  | some c =>
    match decode w c with
    | .ok i => some i
    | .error _ => none
  | none => none

/-- A decimal digit's character. -/
def digitChar (d : Nat) : Char := Char.ofNat ('0'.toNat + d)

/-- The decimal digits of `n`, at most `fuel + 1` of them, in front of `rest`. -/
def showDigits : Nat → Nat → List Char → List Char
  | 0, n, rest => digitChar (n % 10) :: rest
  | fuel + 1, n, rest =>
    if n < 10 then digitChar n :: rest
    else showDigits fuel (n / 10) (digitChar (n % 10) :: rest)

/-- A natural in decimal. It has no more decimal digits than binary ones. -/
def showNat (n : Nat) : List Char := showDigits n.log2 n []

/-- An integer in decimal. -/
def showInt : Int → List Char
  | .ofNat n => showNat n
  | .negSucc n => '-' :: showNat (n + 1)

/-- The operands, a comma and a blank between them as R70 prints them. -/
def showOperands : List Int → List Char
  | [] => []
  | [v] => showInt v
  | v :: vs => showInt v ++ [',', ' '] ++ showOperands vs

/-- The call name R70 gives an OP; a reserved OP has none. -/
def nameOfOp (op : BitVec 3) : Option (List Char) :=
  match op.toNat with
  | 0 => some ['e', 'n', 'c', 'o', 'd', 'e']
  | 1 => some ['n', 'e', 'w', '_', 'r', 'e', 'g', 'i', 's', 't', 'e', 'r']
  | 2 => some ['i', 'n', 'i', 't']
  | 3 => some ['e', 'n', 't', 'r', 'y']
  | 4 => some ['r', 'e', 'a', 'd', '_', 's', 'l', 'o', 't']
  | 5 => some ['l', 'o', 'a', 'd']
  | _ => none

/-- The canonical line of a command record. -/
def showCommand (c : Command) : Option (List Char) :=
  match nameOfOp c.op with
  | some name => some (name ++ ['('] ++ showOperands c.operands ++ [')'])
  | none => none

end Sys2Proof.Machine
end

