-- ==== Sys2Proof/Safety.lean ====
section
/-! DEFINITION. What a safe run is, the named premises on the environment, and the invariants of the machine, in the
terms the statements use. -/

namespace Sys2Proof.Machine

/-- A run that "raised no error": FAULT = NONE and REJECTS = 0 (R30). -/
abbrev State.clean (s : State) : Prop := s.block.fault = none ∧ s.block.rejects = 0

/-- Premise `allocator_ready`: the allocator answers both requests of the next INIT, with `ta` and `ra` (R173). -/
abbrev allocatorReady (s : State) (ta ra : Nat) : Prop := allocAnswer s = some ⟨some ta, some ra⟩

/-- Premise `cpu_accepts`: CPU_VERDICT answers OK to this sequence (R132). A CPU that is not at its most privileged
level (`cpu_privileged`, R136) answers a fault, so this premise holds the other. `single_caller` and `interrupts_off`
(R173) hold by construction: one queue, one command a step. -/
abbrev cpuAccepts (s : State) (seq : List Event) : Prop := verdictAnswer s seq = .ok

/-- The table region and the register region: in the address space, and apart (R41, R48). -/
abbrev regionsApart (w : AddrBytes) (ta ra : Nat) : Prop :=
  ta + tableBytes ≤ w.space ∧ ra + w.regBytes ≤ w.space ∧ (ta + tableBytes ≤ ra ∨ ra + w.regBytes ≤ ta)

/-- An address of the table region (R41). -/
abbrev inTable (ta a : Nat) : Prop := ta ≤ a ∧ a < ta + tableBytes

/-- An address of the register region (R41). -/
abbrev inRegister (w : AddrBytes) (ra a : Nat) : Prop := ra ≤ a ∧ a < ra + w.regBytes

/-- The invariant of the machine. Every clause names the rule it comes from. -/
structure State.Inv (s : State) : Prop where
  /-- Memory keeps its canonical form. -/
  memWf : s.mem.wf
  /-- Memory lists only addresses of the address space (R40). -/
  memInSpace : ∀ c ∈ s.mem, c.1 < s.cfg.addrBytes.space
  /-- Bits 0 to 2 of REJECTS are never set (R30). -/
  rejectsLow : s.block.rejects &&& 0b111#8 = 0
  /-- In UNINIT there is no table, nothing was installed and nothing was loaded (R26 to R29, R31, R33). -/
  uninit : s.block.phase = .uninit →
    s.block.tableAddr = none ∧ s.block.regAddr = none ∧ s.block.gdtrRec = none ∧ s.block.active = none ∧
      s.block.events = [] ∧ s.block.slots = Vector.replicate 16 none
  /-- Outside UNINIT the two regions are owned, and GDTR_REC is the limit 129 with TABLE_ADDR (R29, R41, R48). -/
  owned : s.block.phase ≠ .uninit →
    ∃ ta ra, s.block.tableAddr = some ta ∧ s.block.regAddr = some ra ∧
      s.block.gdtrRec = some ⟨129#16, ta⟩ ∧ regionsApart s.cfg.addrBytes ta ra
  /-- The table region mirrors SLOT (R42). -/
  mirror : ∀ ta (i : Fin 16) e, s.block.tableAddr = some ta → s.block.slots[i] = some e →
    s.mem.read (slotAddr ta i) 8 = some (entryBytesOf e)
  /-- Every byte of the table region holds a value, an unwritten slot's too (R42). -/
  tableHeld : ∀ ta x, s.block.tableAddr = some ta → inTable ta x → (s.mem.get x).isSome
  /-- The register region holds the byte image of GDTR_REC (R43). -/
  register : ∀ ra g, s.block.regAddr = some ra → s.block.gdtrRec = some g →
    s.mem.read ra s.cfg.addrBytes.regBytes = some (gdtrImage s.cfg.addrBytes g)
  /-- E_ALLOC leaves PHASE at UNINIT, E_CPU does not happen there (R25, R133). -/
  faultPhase : ∀ f, s.block.fault = some f → (f = .eAlloc ↔ s.block.phase = .uninit)
  /-- In ACTIVATED, with no fault, ACTIVE records the register that was loaded (R31). -/
  activated : s.block.phase = .activated → s.block.fault = none →
    ∃ act, s.block.active = some act ∧ s.block.gdtrRec = some ⟨act.gdtrLimit, act.gdtrAddr⟩ ∧
      act.ds = act.es ∧ act.es = act.ss
  /-- ACTIVE's ADDR has 8·ADDR_BYTES bits (R31, R29). -/
  activeAddr : ∀ act, s.block.active = some act → act.gdtrAddr < s.cfg.addrBytes.space

/-- What one LOAD that succeeds issues at these parameters (R130, R134). -/
abbrev IsLoadGroup (c : Config) (g : List Event) : Prop :=
  ∃ ra rec codeSel dataSel tlsSel, g = loadSeq c ra rec codeSel dataSel tlsSel

/-- EVENTS is whole LOAD groups, and after E_CPU with sub-step `k` one more group cut after its event `k` (R133,
R134). -/
def State.EventsGrouped (s : State) : Prop :=
  ∃ groups : List (List Event), (∀ g ∈ groups, IsLoadGroup s.cfg g) ∧
    match s.block.fault with
    | some (.eCpu k) => ∃ g, IsLoadGroup s.cfg g ∧ s.block.events = groups.flatten ++ g.take (k.val + 1)
    | _ => s.block.events = groups.flatten

end Sys2Proof.Machine
end

