-- ==== Sys2Proof/Certificates/Slice0/Obligations.lean ====
section
/-! DEFINITION. The statements for the provers. Each docstring names the rule of the spec it formalises; a clause that
rests on the model's own choice names its log entry. Every statement ranges over `s.cfg`, so over both pointer widths
and all six reload orders. -/

open Sys2Proof Sys2Proof.Machine

/-- The state after a rejection: REJECTS gains the bit of the code, the response is the code with an empty result, and
nothing else changes (R10, R30, R151). -/
abbrev Sys2Proof.Machine.rejectedState (r : Rejection) (s : State) : State :=
  { s with
    block := { s.block with rejects := s.block.rejects ||| BitVec.ofNat 8 (2 ^ rejectionCode r) }
    resp := some ⟨.rejected r, []⟩ }

/-! ### The encoder -/

/-- R82 with the bytes of R60 and R80: ENCODE answers OK and the record in every PHASE, writes no state, and has no
step when halted. -/
def Obligations.EncodeAnswersTheRecord : Prop :=
  ∀ (s : State) (base limit : Nat) (access gran : Byte),
    (s.block.fault ≠ none → exec (.encode base limit access gran) s = .fault .halted) ∧
    (s.block.fault = none → ∃ e : Entry,
      exec (.encode base limit access gran) s =
        .next { s with resp := some ⟨.ok, [e.b0, e.b1, e.b2, e.b3, e.b4, e.b5, e.b6, e.b7]⟩ } ∧
      e.b0.toNat = limit % 2 ^ 8 ∧
      e.b1.toNat = limit / 2 ^ 8 % 2 ^ 8 ∧
      e.b2.toNat = base % 2 ^ 8 ∧
      e.b3.toNat = base / 2 ^ 8 % 2 ^ 8 ∧
      e.b4.toNat = base / 2 ^ 16 % 2 ^ 8 ∧
      e.b5 = access ∧
      e.b6.toNat = gran.toNat / 2 ^ 4 * 2 ^ 4 + limit / 2 ^ 16 % 2 ^ 4 ∧
      e.b7.toNat = base / 2 ^ 24 % 2 ^ 8)

/-- R84: the reference decoder gives back the base below 2^32, the limit below 2^20, the access byte and the high nibble
of the granularity byte; wider inputs come back masked; masking first changes nothing. -/
def Obligations.DecodeRecoversEncodedFields : Prop :=
  ∀ (base limit : Nat) (access gran : Byte),
    (base < 2 ^ 32 → limit < 2 ^ 20 →
      decodeEntry (encodeEntry base limit access gran) = ⟨base, limit, access, gran &&& 0xF0#8⟩) ∧
    decodeEntry (encodeEntry base limit access gran) =
      ⟨base % 2 ^ 32, limit % 2 ^ 20, access, gran &&& 0xF0#8⟩ ∧
    encodeEntry (base % 2 ^ 32) (limit % 2 ^ 20) access gran = encodeEntry base limit access gran

/-- R85: the record is 8 bytes; it depends on the masked base and limit, the access byte and gran[7:4] only, is
injective on them, and every 8-byte record is the encoding of one such tuple. -/
def Obligations.RecordsAndMaskedFieldsCorrespond : Prop :=
  (∀ (b l b' l' : Nat) (a g a' g' : Byte),
    encodeEntry b l a g = encodeEntry b' l' a' g' ↔
      b % 2 ^ 32 = b' % 2 ^ 32 ∧ l % 2 ^ 20 = l' % 2 ^ 20 ∧ a = a' ∧ g.toNat / 2 ^ 4 = g'.toNat / 2 ^ 4) ∧
  (∀ e : Entry, ∃ b l : Nat, ∃ a g : Byte, b < 2 ^ 32 ∧ l < 2 ^ 20 ∧ encodeEntry b l a g = e) ∧
  (∀ (b l : Nat) (a g : Byte), (entryBytesOf (encodeEntry b l a g)).length = 8)

/-- The table of R61: the record as one 64-bit little-endian word, field by field. -/
def Obligations.RecordWordLayout : Prop :=
  ∀ (base limit : Nat) (access gran : Byte),
    let W := word64 (encodeEntry base limit access gran)
    W < 2 ^ 64 ∧
    slice W 15 0 = slice limit 15 0 ∧
    slice W 39 16 = slice base 23 0 ∧
    slice W 47 40 = access.toNat ∧
    slice W 51 48 = slice limit 19 16 ∧
    slice W 55 52 = slice gran.toNat 7 4 ∧
    slice W 63 56 = slice base 31 24

/-- R63: the table image is 128 bytes, and slot i occupies byte offsets 8·i to 8·i + 7. -/
def Obligations.TableImageIsSlotsEndToEnd : Prop :=
  ∀ t : Slots, (tableImage t).length = 128 ∧
    ∀ (i : Fin 16) (k : Nat), k < 8 →
      (tableImage t)[8 * i.val + k]? = some ((t[i]).bind fun e => (entryBytesOf e)[k]?)

/-! ### The register formatter -/

/-- R122 with R121's bytes: FMTREG answers OK and the packed record, in every PHASE, with no state written; it has no
step when halted. An addr that does not fit is no operand (R67), and `StopsTheModelAddsAreNamed` says what happens. -/
def Obligations.FmtregAnswersThePackedRecord : Prop :=
  ∀ (s : State) (addr : Nat),
    (s.block.fault ≠ none → exec (.fmtreg addr) s = .fault .halted) ∧
    (s.block.fault = none → addr < s.cfg.addrBytes.space → ∃ bs : List Byte,
      exec (.fmtreg addr) s = .next { s with resp := some ⟨.ok, bs⟩ } ∧
      bs.length = 2 + s.cfg.addrBytes.n ∧ bs[0]? = some 0x81#8 ∧ bs[1]? = some 0x00#8 ∧
      ∀ k, k < s.cfg.addrBytes.n → bs[2 + k]? = some (BitVec.ofNat 8 (addr / 2 ^ (8 * k))))

/-- R123: the record's length, its limit 129 and its address; and after a successful INIT, GDTR_REC.ADDR = TABLE_ADDR
and memory at REG_ADDR holds fmtreg(TABLE_ADDR). -/
def Obligations.FmtregLaws : Prop :=
  (∀ (w : AddrBytes) (addr : Nat), addr < w.space →
    (fmtreg w addr).length = 2 + w.n ∧ fromLe ((fmtreg w addr).take 2) = 129 ∧
      fromLe ((fmtreg w addr).drop 2) = addr) ∧
  (∀ s t : State, exec .init s = .next t → t.resp = some ⟨.ok, []⟩ →
    ∃ ta ra, t.block.tableAddr = some ta ∧ t.block.regAddr = some ra ∧ t.block.gdtrRec = some ⟨129#16, ta⟩ ∧
      t.mem.read ra (2 + t.cfg.addrBytes.n) = some (fmtreg t.cfg.addrBytes ta))

/-! ### INIT -/

/-- R100, every path: halted; a second INIT; an allocation that failed; success. The two answers are the environment's
draw, `allocAnswer`, any Fail or address that meets the duties of R48. Every byte of the table region holds whatever
the allocator left there, a free value of which nothing is said (R42, log entry 8). -/
def Obligations.InitFollowsItsRule : Prop :=
  ∀ s : State,
    (s.block.fault ≠ none → exec .init s = .fault .halted) ∧
    (s.block.fault = none → s.block.phase ≠ .uninit → exec .init s = .next (rejectedState .reinit s)) ∧
    (s.block.fault = none → s.block.phase = .uninit → ∀ a, allocAnswer s = some a → (a.table = none ∨ a.reg = none) →
      ∃ t, exec .init s = .next t ∧
        t.block = { s.block with fault := some .eAlloc } ∧ t.resp = some ⟨.fatal .eAlloc, []⟩ ∧ t.mem = s.mem ∧
        t.cfg = s.cfg ∧ t.pending = s.pending ∧ t.pos = s.pos) ∧
    (s.block.fault = none → s.block.phase = .uninit → ∀ ta ra, allocatorReady s ta ra →
      ∃ t, exec .init s = .next t ∧
        t.block = { s.block with
          phase := .allocated
          tableAddr := some ta
          regAddr := some ra
          gdtrRec := some ⟨129#16, ta⟩
          slots := Vector.replicate 16 none } ∧
        t.resp = some ⟨.ok, []⟩ ∧
        t.mem.read ra s.cfg.addrBytes.regBytes = some (fmtreg s.cfg.addrBytes ta) ∧
        (∀ x, inTable ta x → ∃ b, t.mem.get x = some b) ∧
        (∀ x, ¬inRegister s.cfg.addrBytes ra x → ¬inTable ta x → t.mem.get x = s.mem.get x) ∧
        t.cfg = s.cfg ∧ t.pending = s.pending ∧ t.pos = s.pos)

/-- The answers INIT acts on meet the duties of R48: an address is below 2^(8·ADDR_BYTES) with its whole region, and
the two regions do not overlap. A queued answer that breaks one is refused, the model's choice (log entry 5). -/
def Obligations.AllocatorAnswersMeetTheirDuties : Prop :=
  ∀ s : State,
    (∀ a ta, allocAnswer s = some a → a.table = some ta → ta + 128 ≤ 2 ^ (8 * s.cfg.addrBytes.n)) ∧
    (∀ a ra, allocAnswer s = some a → a.reg = some ra →
      ra + (2 + s.cfg.addrBytes.n) ≤ 2 ^ (8 * s.cfg.addrBytes.n)) ∧
    (∀ ta ra, allocatorReady s ta ra → ∀ x, ¬(inTable ta x ∧ inRegister s.cfg.addrBytes ra x)) ∧
    (s.block.fault = none → s.block.phase = .uninit → allocAnswer s = none →
      exec .init s = .refused .allocatorDuty)

/-! ### INSTALL and READSLOT -/

/-- R101, every path: halted; UNINIT; a bad index; the write of one slot and its 8 bytes. The last has as premises that
the table is there and lies in memory, which `State.Inv` gives outside UNINIT. -/
def Obligations.InstallFollowsItsRule : Prop :=
  ∀ (s : State) (index : Int) (base limit : Nat) (access gran : Byte),
    (s.block.fault ≠ none → exec (.install index base limit access gran) s = .fault .halted) ∧
    (s.block.fault = none → s.block.phase = .uninit →
      exec (.install index base limit access gran) s = .next (rejectedState .notAlloc s)) ∧
    (s.block.fault = none → s.block.phase ≠ .uninit → ¬(0 ≤ index ∧ index ≤ 15) →
      exec (.install index base limit access gran) s = .next (rejectedState .index s)) ∧
    (s.block.fault = none → s.block.phase ≠ .uninit → ∀ (i : Fin 16) (ta : Nat), index = (i.val : Int) →
      s.block.tableAddr = some ta → ta + 8 * i.val + 8 ≤ s.cfg.addrBytes.space →
      ∃ t, exec (.install index base limit access gran) s = .next t ∧
        t.block = { s.block with slots := s.block.slots.set i (some (encodeEntry base limit access gran)) } ∧
        t.resp = some ⟨.ok, []⟩ ∧
        t.mem.read (ta + 8 * i.val) 8 = some (entryBytesOf (encodeEntry base limit access gran)) ∧
        (∀ x, (x < ta + 8 * i.val ∨ ta + 8 * i.val + 8 ≤ x) → t.mem.get x = s.mem.get x) ∧
        t.cfg = s.cfg ∧ t.pending = s.pending ∧ t.pos = s.pos ∧ t.env = s.env)

/-- R102, every path: halted; UNINIT; a bad index; an unwritten slot; the slot's bytes. -/
def Obligations.ReadslotFollowsItsRule : Prop :=
  ∀ (s : State) (index : Int),
    (s.block.fault ≠ none → exec (.readslot index) s = .fault .halted) ∧
    (s.block.fault = none → s.block.phase = .uninit →
      exec (.readslot index) s = .next (rejectedState .notAlloc s)) ∧
    (s.block.fault = none → s.block.phase ≠ .uninit → ¬(0 ≤ index ∧ index ≤ 15) →
      exec (.readslot index) s = .next (rejectedState .index s)) ∧
    (s.block.fault = none → s.block.phase ≠ .uninit → ∀ i : Fin 16, index = (i.val : Int) →
      s.block.slots[i] = none → exec (.readslot index) s = .next (rejectedState .unwritten s)) ∧
    (s.block.fault = none → s.block.phase ≠ .uninit → ∀ (i : Fin 16) (e : Entry), index = (i.val : Int) →
      s.block.slots[i] = some e →
      exec (.readslot index) s = .next { s with resp := some ⟨.ok, entryBytesOf e⟩ })

/-- R104: INSTALL at an index in [0, 16) immediately followed by READSLOT of it answers OK and the encoding, and every
other slot is as before. The premise on `t` says the INSTALL was taken. -/
def Obligations.ReadBackLaw : Prop :=
  ∀ (s t : State) (i : Fin 16) (base limit : Nat) (access gran : Byte),
    s.block.phase ≠ .uninit →
    exec (.install (i.val : Int) base limit access gran) s = .next t →
    exec (.readslot (i.val : Int)) t =
      .next { t with resp := some ⟨.ok, entryBytesOf (encodeEntry base limit access gran)⟩ } ∧
    ∀ j : Fin 16, j ≠ i → t.block.slots[j] = s.block.slots[j]

/-- R46's idempotence: the same INSTALL again, from the state it left, leaves that state. The premise is that memory is
in its canonical form, which every step keeps. -/
def Obligations.InstallIsIdempotent : Prop :=
  ∀ (s t : State) (index : Int) (base limit : Nat) (access gran : Byte), s.mem.wf →
    exec (.install index base limit access gran) s = .next t →
    exec (.install index base limit access gran) t = .next t

/-! ### LOAD -/

/-- The six events of one LOAD, in the order of R134, with the data reloads in the order `segs`. -/
abbrev Sys2Proof.Machine.loadEvents (w : AddrBytes) (ra ta : Nat) (segs : Seg × Seg × Seg)
    (codeSel dataSel tlsSel : Selector) : List Event :=
  [.lgdt ra (fmtreg w ta), .farjmp codeSel, .movseg segs.1 dataSel, .movseg segs.2.1 dataSel,
    .movseg segs.2.2 dataSel, .movseg .gs tlsSel]

/-- R130 and R133, every path: halted; UNINIT; the verdict OK; a verdict Fault(k). `segs` is DATA_RELOAD_ORDER. After a
fault ACTIVE is a free value, of which nothing is said. The premises that REG_ADDR and GDTR_REC are there hold outside
UNINIT by `State.Inv`. -/
def Obligations.LoadFollowsItsRule : Prop :=
  ∀ (s : State) (codeSel dataSel tlsSel : Selector),
    (s.block.fault ≠ none → exec (.load codeSel dataSel tlsSel) s = .fault .halted) ∧
    (s.block.fault = none → s.block.phase = .uninit →
      exec (.load codeSel dataSel tlsSel) s = .next (rejectedState .notAlloc s)) ∧
    (s.block.fault = none → s.block.phase ≠ .uninit → ∀ (ra : Nat) (g : GdtrRec),
      s.block.regAddr = some ra → s.block.gdtrRec = some g →
      let seq := loadEvents s.cfg.addrBytes ra g.addr (reloadSegs s.cfg.reloadOrder) codeSel dataSel tlsSel
      (cpuAccepts s seq →
        ∃ t, exec (.load codeSel dataSel tlsSel) s = .next t ∧
          t.block = { s.block with
            phase := .activated
            active := some
              { gdtrLimit := g.limit, gdtrAddr := g.addr, cs := codeSel, ds := dataSel, es := dataSel, ss := dataSel,
                gs := tlsSel, snap := s.block.slots }
            events := s.block.events ++ seq } ∧
          t.resp = some ⟨.ok, []⟩ ∧ t.mem = s.mem ∧ t.cfg = s.cfg ∧ t.pending = s.pending ∧ t.pos = s.pos) ∧
      (∀ k : Fin 6, verdictAnswer s seq = .fault k →
        ∃ t act, exec (.load codeSel dataSel tlsSel) s = .next t ∧
          t.block = { s.block with
            fault := some (.eCpu k)
            active := act
            events := s.block.events ++ seq.take (k.val + 1) } ∧
          t.resp = some ⟨.fatal (.eCpu k), []⟩ ∧ t.mem = s.mem ∧ t.cfg = s.cfg ∧ t.pending = s.pending ∧
          t.pos = s.pos ∧ ∀ i, exec i t = .fault .halted))

/-- R134: a LOAD that succeeds emits LGDT, FARJMP, the three data reloads, each with data_sel, in the order of
DATA_RELOAD_ORDER, then GS, and no other event. Each value of DATA_RELOAD_ORDER is the permutation of DS, ES and SS its
name spells, and each of the six permutations is some value. -/
def Obligations.LoadEmitsSixEventsInOrder : Prop :=
  (reloadSegs .dsEsSs = (.ds, .es, .ss) ∧ reloadSegs .dsSsEs = (.ds, .ss, .es) ∧
    reloadSegs .esDsSs = (.es, .ds, .ss) ∧ reloadSegs .esSsDs = (.es, .ss, .ds) ∧
    reloadSegs .ssDsEs = (.ss, .ds, .es) ∧ reloadSegs .ssEsDs = (.ss, .es, .ds)) ∧
  (∀ s1 s2 s3, [s1, s2, s3].Perm [Seg.ds, Seg.es, Seg.ss] ↔ ∃ o, reloadSegs o = (s1, s2, s3)) ∧
  ∀ (s t : State) (codeSel dataSel tlsSel : Selector),
    exec (.load codeSel dataSel tlsSel) s = .next t → t.resp = some ⟨.ok, []⟩ →
    ∃ ra bs s1 s2 s3, s.block.regAddr = some ra ∧ reloadSegs s.cfg.reloadOrder = (s1, s2, s3) ∧
      t.block.events = s.block.events ++
        [.lgdt ra bs, .farjmp codeSel, .movseg s1 dataSel, .movseg s2 dataSel, .movseg s3 dataSel,
          .movseg .gs tlsSel]

/-- R175: an INSTALL changes SLOT and the table region and not ACTIVE; no command but LOAD changes ACTIVE; a LOAD that succeeds copies the
SLOT it finds into ACTIVE.SNAP. -/
def Obligations.OnlyLoadRefreshesActive : Prop :=
  (∀ (i : Instr) (s t : State), exec i s = .next t → (∀ c d ts, i ≠ .load c d ts) →
    t.block.active = s.block.active) ∧
  (∀ (s t u : State) (i : Fin 16) (b l : Nat) (a g : Byte) (c d ts : Selector),
    s.block.phase ≠ .uninit →
    exec (.install (i.val : Int) b l a g) s = .next t →
    t.block.active = s.block.active ∧ t.block.slots = s.block.slots.set i (some (encodeEntry b l a g)) ∧
    (∃ ta, s.block.tableAddr = some ta ∧
      t.mem.read (ta + 8 * i.val) 8 = some (entryBytesOf (encodeEntry b l a g))) ∧
    (exec (.load c d ts) t = .next u → u.resp = some ⟨.ok, []⟩ →
      ∃ act, u.block.active = some act ∧ act.snap = s.block.slots.set i (some (encodeEntry b l a g))))

/-! ### The reserved OPs -/

/-- R69: OP 110 and OP 111 are rejected with E_ILLEGAL, code 3, and only REJECTS bit 3 is set; halted, they have no
step (R153). -/
def Obligations.ReservedOpsAreRejected : Prop :=
  ∀ s : State,
    (s.block.fault ≠ none →
      exec .reserved110 s = .fault .halted ∧ exec .reserved111 s = .fault .halted) ∧
    (s.block.fault = none →
      exec .reserved110 s = .next
        { s with
          block := { s.block with rejects := s.block.rejects ||| 0b00001000#8 }
          resp := some ⟨.rejected .illegal, []⟩ } ∧
      exec .reserved111 s = .next
        { s with
          block := { s.block with rejects := s.block.rejects ||| 0b00001000#8 }
          resp := some ⟨.rejected .illegal, []⟩ }) ∧
    statusCode (.rejected .illegal) = 0b011#3

/-! ### Rules of the whole machine -/

/-- R24: PHASE's numbers, its reset value, and which command writes which phase from where. -/
def Obligations.PhaseLifecycle : Prop :=
  (phaseCode .uninit = 0 ∧ phaseCode .allocated = 1 ∧ phaseCode .activated = 2 ∧ ∀ p, phaseCode p ≠ 3) ∧
  State.reset.block.phase = .uninit ∧
  ∀ (i : Instr) (s t : State), exec i s = .next t →
    (t.block.phase = .uninit → s.block.phase = .uninit) ∧
    (t.block.phase = .allocated → s.block.phase ≠ .allocated → i = .init ∧ s.block.phase = .uninit) ∧
    (t.block.phase = .activated → s.block.phase ≠ .activated →
      (∃ c d ts, i = .load c d ts) ∧ s.block.phase = .allocated)

/-- R25: FAULT's numbers and reset value; a command writes it only from NONE, INIT to E_ALLOC and LOAD to E_CPU; once
it is not NONE no command has a step. -/
def Obligations.FaultIsWrittenOnlyByRaise : Prop :=
  (faultCode none = 0 ∧ faultCode (some .eAlloc) = 1 ∧ ∀ k, faultCode (some (.eCpu k)) = 2) ∧
  State.reset.block.fault = none ∧
  (∀ (i : Instr) (s t : State), exec i s = .next t → s.block.fault = none ∧
    (t.block.fault = none ∨ (i = .init ∧ t.block.fault = some .eAlloc) ∨
      (∃ c d ts k, i = .load c d ts ∧ t.block.fault = some (.eCpu k)))) ∧
  (∀ (i : Instr) (s : State), s.block.fault ≠ none → exec i s = .fault .halted)

/-- R30: a command sets bit k of REJECTS exactly when it is rejected with code k, clears no bit, and changes no other;
bits 0 to 2 are never set; the reset value is 0. -/
def Obligations.RejectsIsSticky : Prop :=
  State.reset.block.rejects = 0 ∧
  (∀ (i : Instr) (s t : State), exec i s = .next t →
    (∀ r, t.resp = some ⟨.rejected r, []⟩ →
      ∀ k, t.block.rejects.getLsbD k = (s.block.rejects.getLsbD k || decide (k = rejectionCode r))) ∧
    ((∀ r, t.resp ≠ some ⟨.rejected r, []⟩) → t.block.rejects = s.block.rejects)) ∧
  (∀ r, 3 ≤ rejectionCode r ∧ rejectionCode r ≤ 7)

/-- R151: a rejection changes REJECTS alone and empties the result; a fatal fault sets FAULT to its code and writes
nothing else but, for E_CPU, the emitted events and ACTIVE; then the block halts. -/
def Obligations.RejectionsAndFaultsWriteOnlyTheirOwn : Prop :=
  ∀ (i : Instr) (s t : State), exec i s = .next t →
    (∀ r res, t.resp = some ⟨.rejected r, res⟩ → t = rejectedState r s) ∧
    (∀ res, t.resp = some ⟨.fatal .eAlloc, res⟩ →
      res = [] ∧ t.block = { s.block with fault := some .eAlloc } ∧ t.mem = s.mem ∧
        ∀ j, exec j t = .fault .halted) ∧
    (∀ k res, t.resp = some ⟨.fatal (.eCpu k), res⟩ →
      res = [] ∧ t.mem = s.mem ∧ ∃ es, t.block =
        { s.block with fault := some (.eCpu k), active := t.block.active, events := s.block.events ++ es } ∧
        ∀ j, exec j t = .fault .halted)

/-- The codes of R152's table, by OP. -/
def Sys2Proof.Machine.possibleCodes (op : BitVec 3) : List (BitVec 3) :=
  match op.toNat with
  | 0 => [0]
  | 1 => [0]
  | 2 => [0, 1, 5]
  | 3 => [0, 4, 6]
  | 4 => [0, 4, 6, 7]
  | 5 => [0, 2, 4]
  | _ => [3]

/-- R152: a command that steps answers with one of its codes, and every code of the table is answered by some command
of that OP in some state. -/
def Obligations.StatusCodesOfEachCommand : Prop :=
  (∀ (i : Instr) (s t : State), exec i s = .next t →
    ∃ r, t.resp = some r ∧ statusCode r.status ∈ possibleCodes (encode i).op) ∧
  (∀ op, ∀ c ∈ possibleCodes op, ∃ (i : Instr) (s t : State) (r : Response),
    (encode i).op = op ∧ exec i s = .next t ∧ t.resp = some r ∧ statusCode r.status = c)

/-- The rejection R154's order gives a command, its checks 2 to 5; `none` where none of them applies. -/
def Sys2Proof.Machine.firstRejection (i : Instr) (s : State) : Option Rejection :=
  match i with
  | .encode _ _ _ _ => none
  | .fmtreg _ => none
  | .init => if s.block.phase = .uninit then none else some .reinit
  | .install index _ _ _ _ =>
    if s.block.phase = .uninit then some .notAlloc
    else if 0 ≤ index ∧ index < 16 then none else some .index
  | .readslot index =>
    if s.block.phase = .uninit then some .notAlloc
    else if 0 ≤ index ∧ index < 16 then
      if s.block.slots[index.toNat]? = some none then some .unwritten else none
    else some .index
  | .load _ _ _ => if s.block.phase = .uninit then some .notAlloc else none
  | .reserved110 => some .illegal
  | .reserved111 => some .illegal

/-- R154: FAULT first, then the reserved OP, the phase, the index, the slot; the first that applies decides. A command
to which none applies is not rejected, and the environment decides last: E_ALLOC exactly where an allocation failed,
E_CPU exactly where the verdict is a fault. -/
def Obligations.ChecksApplyInPriorityOrder : Prop :=
  ∀ (i : Instr) (s : State),
    (s.block.fault ≠ none → exec i s = .fault .halted) ∧
    (s.block.fault = none → ∀ r, firstRejection i s = some r → exec i s = .next (rejectedState r s)) ∧
    (s.block.fault = none → firstRejection i s = none → ∀ t, exec i s = .next t →
      (∀ r res, t.resp ≠ some ⟨.rejected r, res⟩) ∧
      (t.resp = some ⟨.fatal .eAlloc, []⟩ ↔
        i = .init ∧ ∃ a, allocAnswer s = some a ∧ (a.table = none ∨ a.reg = none)) ∧
      ∀ k, t.resp = some ⟨.fatal (.eCpu k), []⟩ ↔
        ∃ c d ts ra g, i = .load c d ts ∧ s.block.regAddr = some ra ∧ s.block.gdtrRec = some g ∧
          verdictAnswer s
            (loadEvents s.cfg.addrBytes ra g.addr (reloadSegs s.cfg.reloadOrder) c d ts) = .fault k)

/-- R153: while FAULT ≠ NONE no command has a step, presented or run directly, and only reset leaves that state. That a
halted block with nothing presented has no step either is the model's reading, log entry 4 (DEDUCED): R153 speaks of
commands only. -/
def Obligations.HaltedBlockTakesOnlyReset : Prop :=
  ∀ s : State, s.block.fault ≠ none →
    (∀ i, exec i s = .fault .halted) ∧
    (∀ c, s.pending.head? = some (.command c) → step s = .fault .halted) ∧
    (∀ t, step s = .next t → s.pending.head? = some .reset ∧ t.block.fault = none)

/-- The access matrix of R32, its "w" cells: which command may write which field. -/
def Obligations.EachFieldHasItsWriters : Prop :=
  ∀ (i : Instr) (s t : State), exec i s = .next t →
    (t.block.slots ≠ s.block.slots → i = .init ∨ ∃ x b l a g, i = .install x b l a g) ∧
    (t.block.tableAddr ≠ s.block.tableAddr ∨ t.block.regAddr ≠ s.block.regAddr ∨
      t.block.gdtrRec ≠ s.block.gdtrRec → i = .init) ∧
    (t.block.active ≠ s.block.active ∨ t.block.events ≠ s.block.events → ∃ c d ts, i = .load c d ts) ∧
    (t.block.phase ≠ s.block.phase ∨ t.block.fault ≠ s.block.fault → i = .init ∨ ∃ c d ts, i = .load c d ts) ∧
    t.cfg = s.cfg ∧ t.pending = s.pending ∧ t.pos = s.pos

/-- R27 to R29 and R105: outside UNINIT no command changes TABLE_ADDR, REG_ADDR or GDTR_REC. -/
def Obligations.TableNeverMoves : Prop :=
  ∀ (i : Instr) (s t : State), s.block.phase ≠ .uninit → exec i s = .next t →
    t.block.tableAddr = s.block.tableAddr ∧ t.block.regAddr = s.block.regAddr ∧ t.block.gdtrRec = s.block.gdtrRec

/-- R40, R42, R43 and R46: a byte of memory changes only under INSTALL, in the 8 bytes of the slot it names, or under
INIT, in the register region it writes or in the table region the allocator hands it, whose bytes are a draw (log
entry 8). -/
def Obligations.MemoryChangesOnlyWhereTheBlockWrites : Prop :=
  ∀ (i : Instr) (s t : State) (x : Nat), exec i s = .next t → t.mem.get x ≠ s.mem.get x →
    (∃ (k : Fin 16) (b l : Nat) (a g : Byte) (ta : Nat), i = .install (k.val : Int) b l a g ∧
      s.block.tableAddr = some ta ∧ ta + 8 * k.val ≤ x ∧ x < ta + 8 * k.val + 8) ∨
    (i = .init ∧ ∃ ra, t.block.regAddr = some ra ∧ inRegister s.cfg.addrBytes ra x) ∨
    (i = .init ∧ ∃ ta, t.block.tableAddr = some ta ∧ inTable ta x ∧
      t.mem.get x = some (Config.leftByte t.env.draws x))

/-- R33: EVENTS starts empty and only grows, and only LOAD appends to it. -/
def Obligations.EventsAreAppendOnly : Prop :=
  State.reset.block.events = [] ∧ ∀ (i : Instr) (s t : State), exec i s = .next t →
    ∃ es, t.block.events = s.block.events ++ es ∧ ((∀ c d ts, i ≠ .load c d ts) → es = [])

/-! ### Reset, waiting, stepping -/

/-- R34 and R170: reset puts every field of the block at its reset value, from any state, a halted one too, and does
not touch memory; the state after reset holds the same values. -/
def Obligations.ResetPutsEveryFieldAtItsValue : Prop :=
  let isReset := fun b : Block =>
    b.phase = .uninit ∧ b.fault = none ∧ b.rejects = 0 ∧ (∀ i : Fin 16, b.slots[i] = none) ∧ b.tableAddr = none ∧
      b.regAddr = none ∧ b.gdtrRec = none ∧ b.active = none ∧ b.events = []
  isReset State.reset.block ∧
  ∀ (s : State) (rest : List Input), s.pending = .reset :: rest →
    ∃ t, step s = .next t ∧ isReset t.block ∧ t.mem = s.mem

/-- Around the block, a reset restarts the position and clears the response, and leaves the parameters, the rest of the
queue and the environment's answers: the model's choice (log entry 15). A state after reset holds these values for any
parameters. -/
def Obligations.ResetKeepsTheEnvironment : Prop :=
  (∀ (s t : State) (rest : List Input), s.pending = .reset :: rest → step s = .next t →
    t.pos = 0 ∧ t.resp = none ∧ t.pending = rest ∧ t.cfg = s.cfg ∧ t.env = s.env) ∧
  ∀ c, (State.resetWith c).cfg = c ∧ (State.resetWith c).block = State.reset.block ∧
    (State.resetWith c).mem = [] ∧ (State.resetWith c).pending = []

/-- R171's list: in UNINIT with no fault, ENCODE and FMTREG succeed, INIT succeeds or faults, INSTALL, READSLOT and LOAD
are rejected with E_NOTALLOC, and with nothing presented the block waits. INIT's clause supposes that the allocator's
answer meets its duties (log entry 5), FMTREG's that its operand is one. -/
def Obligations.UninitBlockBehaviour : Prop :=
  ∀ s : State, s.block.phase = .uninit → s.block.fault = none →
    (∀ b l a g, ∃ t bs, exec (.encode b l a g) s = .next t ∧ t.resp = some ⟨.ok, bs⟩) ∧
    (∀ addr, addr < s.cfg.addrBytes.space → ∃ t bs, exec (.fmtreg addr) s = .next t ∧ t.resp = some ⟨.ok, bs⟩) ∧
    (allocAnswer s ≠ none → ∃ t, exec .init s = .next t ∧
      ((t.resp = some ⟨.ok, []⟩ ∧ t.block.phase = .allocated) ∨
        (t.resp = some ⟨.fatal .eAlloc, []⟩ ∧ t.block.fault = some .eAlloc))) ∧
    (∀ x b l a g, exec (.install x b l a g) s = .next (rejectedState .notAlloc s)) ∧
    (∀ x, exec (.readslot x) s = .next (rejectedState .notAlloc s)) ∧
    (∀ c d ts, exec (.load c d ts) s = .next (rejectedState .notAlloc s)) ∧
    (s.pending = [] → step s = .next s)

/-- A step runs the decoded command: what it adds around `exec` is that the command leaves the queue and the position
moves on by 1 (R22). A record that is no command is refused by name (R67). -/
def Obligations.StepRunsTheDecodedCommand : Prop :=
  ∀ (s : State) (c : Command) (rest : List Input), s.pending = .command c :: rest → s.block.fault = none →
    (∀ i, decode s.cfg.addrBytes c = .ok i → step s = exec i { s with pending := rest, pos := s.pos + 1 }) ∧
    (∀ e, decode s.cfg.addrBytes c = .error e → step s = .refused (.illTyped e))

/-- The environment's answers are taken in turn: INIT in UNINIT takes one allocator answer, LOAD outside UNINIT one
verdict, each draw moves the counter on, and no other command draws. The queues and the counter are the model's
(log entries 5 to 7). -/
def Obligations.DrawsAreTakenInTurn : Prop :=
  ∀ (i : Instr) (s t : State), exec i s = .next t →
    (i = .init → s.block.phase = .uninit →
      t.env = { s.env with allocs := s.env.allocs.tail, draws := s.env.draws + 1 }) ∧
    (∀ c d ts, i = .load c d ts → s.block.phase ≠ .uninit →
      t.env.allocs = s.env.allocs ∧ t.env.verdicts = s.env.verdicts.tail ∧ s.env.draws < t.env.draws) ∧
    (¬(i = .init ∧ s.block.phase = .uninit) → ¬((∃ c d ts, i = .load c d ts) ∧ s.block.phase ≠ .uninit) →
      t.env = s.env)

/-- Where the model stops on its own account: an FMTREG whose addr is no operand (log entry 14), and INSTALL and LOAD in
states no run reaches, without the table their PHASE promises or with the slot outside memory (log entry 12). -/
def Obligations.StopsTheModelAddsAreNamed : Prop :=
  ∀ s : State, s.block.fault = none →
    (∀ addr, ¬addr < s.cfg.addrBytes.space → exec (.fmtreg addr) s = .refused (.illTyped .tooWide)) ∧
    (s.block.phase ≠ .uninit → ∀ (i : Fin 16) (b l : Nat) (a g : Byte),
      (s.block.tableAddr = none → exec (.install (i.val : Int) b l a g) s = .fault .noTable) ∧
      (∀ ta, s.block.tableAddr = some ta → s.cfg.addrBytes.space < ta + 8 * i.val + 8 →
        exec (.install (i.val : Int) b l a g) s = .fault .outsideMemory)) ∧
    (s.block.phase ≠ .uninit → (s.block.regAddr = none ∨ s.block.gdtrRec = none) → ∀ c d ts,
      exec (.load c d ts) s = .fault .noTable)

/-! ### Decoding -/

/-- The OPs of R66 and R69, each with operands written out, decode to the command they stand for. -/
def Obligations.OpcodeMapSanity : Prop :=
  ∀ w : AddrBytes,
    decode w ⟨0b000#3, [0x1000, 0xFFF, 0x92, 0x40]⟩ = .ok (.encode 0x1000 0xFFF 0x92#8 0x40#8) ∧
    decode w ⟨0b001#3, [0x00100000]⟩ = .ok (.fmtreg 0x00100000) ∧
    decode w ⟨0b010#3, []⟩ = .ok .init ∧
    decode w ⟨0b011#3, [-1, 0, 0xFFFFF, 0x9A, 0xCF]⟩ = .ok (.install (-1) 0 0xFFFFF 0x9A#8 0xCF#8) ∧
    decode w ⟨0b100#3, [7]⟩ = .ok (.readslot 7) ∧
    decode w ⟨0b101#3, [0x08, 0x10, 0x18]⟩ = .ok (.load 0x08#16 0x10#16 0x18#16) ∧
    decode w ⟨0b110#3, []⟩ = .ok .reserved110 ∧
    decode w ⟨0b111#3, []⟩ = .ok .reserved111

/-- Decode and encode agree at every operand value the types admit (R66, R67); only a well-formed instruction is ever
decoded; and a record of one of the six commands that decodes is the encoding of its instruction. The record's operand
list is the model's form (log entry 2). A reserved OP is read whatever operands stand with it (log entry 14), so a
record of OP 110 or 111 need not be the encoding of its instruction. -/
def Obligations.DecodeEncodeAgree : Prop :=
  ∀ w : AddrBytes,
    (∀ i : Instr, i.wellFormed w = true → decode w (encode i) = .ok i) ∧
    (∀ (c : Command) (i : Instr), decode w c = .ok i →
      i.wellFormed w = true ∧ (encode i).op = c.op ∧ (c.op.toNat < 6 → encode i = c))

/-- The operands are of R67's types, in R66's order. -/
def Sys2Proof.operandsTyped (w : AddrBytes) (c : Command) : Prop :=
  match c.op.toNat, c.operands with
  | 0, [b, l, a, g] => 0 ≤ b ∧ 0 ≤ l ∧ (0 ≤ a ∧ a < 256) ∧ (0 ≤ g ∧ g < 256)
  | 1, [a] => 0 ≤ a ∧ a < 2 ^ (8 * w.n)
  | 2, [] => True
  | 3, [_, b, l, a, g] => 0 ≤ b ∧ 0 ≤ l ∧ (0 ≤ a ∧ a < 256) ∧ (0 ≤ g ∧ g < 256)
  | 4, [_] => True
  | 5, [x, d, t] => (0 ≤ x ∧ x < 65536) ∧ (0 ≤ d ∧ d < 65536) ∧ (0 ≤ t ∧ t < 65536)
  | 6, _ => True
  | 7, _ => True
  | _, _ => False

/-- R67: a record is a command exactly when its operands are of their types; base and limit are naturals of any width,
index any integer. -/
def Obligations.DecodeAcceptsExactlyTypedOperands : Prop :=
  ∀ (w : AddrBytes) (c : Command), (∃ i, decode w c = .ok i) ↔ operandsTyped w c

/-- R70: the line written for a command reads back as that command, at every operand value, and every command but the
reserved OPs has a line. The layout of the line is R70's; blanks are log entry 9. -/
def Obligations.TextReadsBackAsTheCommand : Prop :=
  ∀ i : Instr,
    (i ≠ .reserved110 → i ≠ .reserved111 → ∃ line, showCommand (encode i) = some line) ∧
    (∀ line, showCommand (encode i) = some line →
      readLine line = some (encode i) ∧ ∀ w, i.wellFormed w = true → readInstr w line = some i)

/-! ### Memory and invariants -/

/-- R9's MemRead and MemWrite: a read after a write of the same bytes gives them, bytes apart are as before, and the
write keeps the canonical form. -/
def Obligations.MemWriteThenMemRead : Prop :=
  ∀ (m : Memory) (a : Nat) (bs : List Byte),
    (m.write a bs).read a bs.length = some bs ∧
    (∀ k, k < bs.length → (m.write a bs).get (a + k) = bs[k]?) ∧
    (∀ x n, x + n ≤ a ∨ a + bs.length ≤ x → (m.write a bs).read x n = m.read x n) ∧
    (m.wf → (m.write a bs).wf)

/-- The invariant holds at reset, whatever the parameters. -/
def Obligations.ResetMeetsTheInvariant : Prop :=
  (∀ c : Config, (State.resetWith c).Inv ∧ (State.resetWith c).EventsGrouped) ∧ State.reset.Inv

/-- Every step keeps the invariant: memory stays canonical and in the address space, the table region mirrors SLOT
(R42), the register region holds GDTR_REC's image (R43), the lifecycle fields agree with PHASE (R24, R26 to R31), and
REJECTS bits 0 to 2 stay clear (R30). -/
def Obligations.StepKeepsTheInvariant : Prop :=
  ∀ s t : State, s.Inv → step s = .next t → t.Inv

/-- Every step keeps EVENTS a sequence of whole LOAD groups in R134's order, with one group cut after sub-step k where
FAULT is E_CPU(k) (R133). -/
def Obligations.StepKeepsEventsGrouped : Prop :=
  ∀ s t : State, s.EventsGrouped → step s = .next t → t.EventsGrouped

/-- Under the invariant nothing but FAULT keeps a command from its effect: every well-formed instruction answers a next
state. INIT's queued answer, where there is one, is a move the environment has (log entry 5). -/
def Obligations.RunningBlockTakesEveryCommand : Prop :=
  ∀ (s : State) (i : Instr), s.Inv → s.block.fault = none → i.wellFormed s.cfg.addrBytes = true →
    (∀ a ∈ s.env.allocs, allocDuties s.cfg.addrBytes a = true) →
    ∃ t, exec i s = .next t

/-- R42's mirror seen by one command: under the invariant, a READSLOT that succeeds answers the bytes system memory holds
at TABLE_ADDR + 8·index (R102's corner case). -/
def Obligations.ReadslotAgreesWithMemory : Prop :=
  ∀ (s t : State) (index : Int) (bs : List Byte), s.Inv → exec (.readslot index) s = .next t →
    t.resp = some ⟨.ok, bs⟩ →
    ∃ ta, s.block.tableAddr = some ta ∧ s.mem.read (ta + 8 * index.toNat) 8 = some bs

/-- R42: under the invariant, the byte at TABLE_ADDR + 8·i + k is byte k of SLOT[i] where the slot is written, and some
byte where it is not; and the bytes a successful INIT finds in the table region are the allocator's draw, the free
value of log entry 8. -/
def Obligations.TableRegionMirrorsSlot : Prop :=
  (∀ (s : State) (ta : Nat) (i : Fin 16) (k : Nat), s.Inv → s.block.tableAddr = some ta → k < 8 →
    (∀ e, s.block.slots[i] = some e → s.mem.get (ta + 8 * i.val + k) = (entryBytesOf e)[k]?) ∧
    (s.block.slots[i] = none → ∃ b, s.mem.get (ta + 8 * i.val + k) = some b)) ∧
  (∀ (s t : State) (ta : Nat), exec .init s = .next t → t.resp = some ⟨.ok, []⟩ → t.block.tableAddr = some ta →
    ∀ x, inTable ta x → t.mem.get x = some (Config.leftByte t.env.draws x))

/-- R40, R42 and R46: the block makes no reads. With any other memory in place a command has the same outcome, and the
next state differs in memory alone: there each byte either is the same in both, or the command left it in both. So no
byte a command stores depends on what memory held. -/
def Obligations.BlockNeverReadsMemory : Prop :=
  ∀ (i : Instr) (s : State) (m : Memory),
    (∀ t, exec i s = .next t → ∃ m', exec i { s with mem := m } = .next { t with mem := m' } ∧
      ∀ x, m'.get x = t.mem.get x ∨ (t.mem.get x = s.mem.get x ∧ m'.get x = m.get x)) ∧
    (∀ f, exec i s = .fault f → exec i { s with mem := m } = .fault f) ∧
    (∀ r, exec i s = .refused r → exec i { s with mem := m } = .refused r)
end

