-- ==== Sys2Proof/Laws/Decode.lean ====
section
/-! SUPPORT. What the operand typing of the decoder accepts, said once per operand type. -/

namespace Sys2Proof

theorem asNatural_eq_ok {v : Int} {n : Nat} : asNatural v = .ok n ↔ v = (n : Int) := by
  cases v with
  | ofNat m => simp [asNatural]
  | negSucc m => simp [asNatural]

theorem asBits_eq_ok {k : Nat} {v : Int} {x : BitVec k} : asBits k v = .ok x ↔ v = (x.toNat : Int) := by
  unfold asBits
  constructor
  · intro h
    split at h
    · next n hn =>
      split_ifs at h with hk
      cases h
      rw [asNatural_eq_ok.mp hn, BitVec.toNat_ofNat, Nat.mod_eq_of_lt hk]
    · cases h
  · rintro rfl
    rw [asNatural_eq_ok.mpr rfl]
    simp only [if_pos x.isLt, BitVec.ofNat_toNat, BitVec.setWidth_eq]

theorem asAddr_eq_ok {w : AddrBytes} {v : Int} {n : Nat} : asAddr w v = .ok n ↔ v = (n : Int) ∧ n < w.space := by
  unfold asAddr
  constructor
  · intro h
    split at h
    · next m hm =>
      split_ifs at h with hk
      cases h
      exact ⟨asNatural_eq_ok.mp hm, hk⟩
    · cases h
  · rintro ⟨rfl, h⟩
    rw [asNatural_eq_ok.mpr rfl]
    exact if_pos h

/-- Peel one step off a computation that may refuse. -/
theorem except_bind_ok {α β : Type} {x : Except OperandError α} {f : α → Except OperandError β} {b : β} :
    (x >>= f) = .ok b ↔ ∃ a, x = .ok a ∧ f a = .ok b := by
  cases x <;> simp [bind, Except.bind]

theorem op_cases (op : BitVec 3) :
    op = 0#3 ∨ op = 1#3 ∨ op = 2#3 ∨ op = 3#3 ∨ op = 4#3 ∨ op = 5#3 ∨ op = 6#3 ∨ op = 7#3 := by
  revert op; decide

end Sys2Proof
end

