-- ==== Sys2Proof/Laws/Memory.lean ====
section
/-! SUPPORT. The laws of system memory: a read after a write, what a write leaves alone, and that every memory
operation keeps the canonical form. -/

namespace Sys2Proof.Machine

theorem Memory.get_set (m : Memory) (a a' : Nat) (b : Byte) :
    (m.set a b).get a' = if a' = a then some b else m.get a' := by
  induction m with
  | nil => simp [Memory.set, Memory.get, Memory.unlisted, eq_comm]
  | cons c m ih =>
    obtain ⟨k, v⟩ := c
    simp only [Memory.set]
    split_ifs with hlt heq <;> simp only [Memory.get, ih] <;> split_ifs <;> first | rfl | omega

/-- A written address is listed, and nothing else is new. -/
theorem Memory.mem_set {m : Memory} {a : Nat} {b : Byte} {c : Host.Cell} (h : c ∈ m.set a b) :
    c = (a, b) ∨ c ∈ m := by
  induction m with
  | nil => simpa [Memory.set] using h
  | cons d m ih =>
    obtain ⟨k, v⟩ := d
    simp only [Memory.set] at h
    split_ifs at h <;> simp only [List.mem_cons] at h ⊢ <;> tauto

theorem Memory.wf_set {m : Memory} (h : m.wf) (a : Nat) (b : Byte) : (m.set a b).wf := by
  induction m with
  | nil => simp [Memory.set, Memory.wf]
  | cons d m ih =>
    obtain ⟨k, v⟩ := d
    obtain ⟨hk, hm⟩ := List.pairwise_cons.mp h
    simp only [Memory.set]
    split_ifs with hlt heq
    · refine List.pairwise_cons.mpr ⟨?_, h⟩
      rintro c (_ | ⟨_, hc⟩)
      · exact hlt
      · exact hlt.trans (hk c hc)
    · subst heq; exact List.pairwise_cons.mpr ⟨hk, hm⟩
    · refine List.pairwise_cons.mpr ⟨fun c hc => ?_, ih hm⟩
      obtain rfl | hc := Memory.mem_set hc
      · show k < a; omega
      · exact hk c hc

theorem Memory.wf_write {m : Memory} (h : m.wf) (a : Nat) (bs : List Byte) : (m.write a bs).wf := by
  induction bs generalizing m a with
  | nil => exact h
  | cons b bs ih => exact ih (Memory.wf_set h a b) (a + 1)

/-- A write lists only addresses it stores to. -/
theorem Memory.mem_write {m : Memory} {a : Nat} {bs : List Byte} {c : Host.Cell} (h : c ∈ m.write a bs) :
    (a ≤ c.1 ∧ c.1 < a + bs.length) ∨ c ∈ m := by
  induction bs generalizing m a with
  | nil => exact .inr h
  | cons b bs ih =>
    simp only [List.length_cons]
    obtain hc | hc := ih h
    · left; omega
    · obtain rfl | hc := Memory.mem_set hc
      · left; simp
      · exact .inr hc

/-- A write changes no byte outside what it stores. -/
theorem Memory.get_write_outside {m : Memory} {a : Nat} {bs : List Byte} {x : Nat}
    (h : x < a ∨ a + bs.length ≤ x) : (m.write a bs).get x = m.get x := by
  induction bs generalizing m a with
  | nil => rfl
  | cons b bs ih =>
    simp only [List.length_cons] at h
    rw [Memory.write, ih (by omega), Memory.get_set, if_neg (by omega)]

/-- Reading depends on the bytes of the range only. -/
theorem Memory.read_congr {m m' : Memory} {a n : Nat}
    (h : ∀ x, a ≤ x → x < a + n → m.get x = m'.get x) : m.read a n = m'.read a n := by
  induction n generalizing a with
  | zero => rfl
  | succ n ih =>
    have htail := ih (a := a + 1) fun x _ _ => h x (by omega) (by omega)
    simp only [Memory.read, h a le_rfl (by omega), htail]

/-- A read after a write to the same place gives what was written. -/
theorem Memory.read_write_same (m : Memory) (a : Nat) (bs : List Byte) :
    (m.write a bs).read a bs.length = some bs := by
  induction bs generalizing m a with
  | nil => rfl
  | cons b bs ih =>
    have hhead : (Memory.write (m.set a b) (a + 1) bs).get a = some b := by
      rw [Memory.get_write_outside (.inl (by omega)), Memory.get_set, if_pos rfl]
    simp [Memory.write, Memory.read, hhead, ih]

/-- A read apart from a write gives what it gave before. -/
theorem Memory.read_write_apart {m : Memory} {a n x : Nat} {bs : List Byte}
    (h : x + n ≤ a ∨ a + bs.length ≤ x) : (m.write a bs).read x n = m.read x n :=
  Memory.read_congr fun _ _ _ => Memory.get_write_outside (by omega)

/-- Each byte of a read is the byte at its address. -/
theorem Memory.get_of_read {m : Memory} {a n : Nat} {bs : List Byte} (h : m.read a n = some bs) {k : Nat}
    (hk : k < n) : m.get (a + k) = bs[k]? := by
  induction n generalizing a bs k with
  | zero => omega
  | succ n ih =>
    simp only [Memory.read] at h
    split at h
    · next b bs' hb hbs =>
      cases h
      cases k with
      | zero => simpa using hb
      | succ k => simpa [Nat.add_assoc, Nat.add_comm 1 k] using ih hbs (by omega : k < n)
    · cases h

/-- All a write does to one byte: the stored byte inside its range, no change outside. -/
theorem Memory.get_write (m : Memory) (a : Nat) (bs : List Byte) (x : Nat) :
    (m.write a bs).get x = if a ≤ x ∧ x < a + bs.length then bs[x - a]? else m.get x := by
  split_ifs with h
  · have hk := Memory.get_of_read (Memory.read_write_same m a bs) (k := x - a) (by omega)
    rwa [Nat.add_sub_cancel' h.1] at hk
  · exact Memory.get_write_outside (by omega)

/-- An address above every listed one, or between two, holds no value. -/
theorem Memory.get_eq_none {m : Memory} {k : Nat} (h : ∀ c ∈ m, k < c.1) : m.get k = none := by
  induction m with
  | nil => rfl
  | cons c m ih =>
    obtain ⟨a, v⟩ := c
    have ha : k < a := h (a, v) (by simp)
    rw [Memory.get, if_neg (by omega)]
    exact ih fun c hc => h c (by simp [hc])

/-- Canonical memories that read alike are equal data. -/
theorem Memory.ext_get {m m' : Memory} (h : m.wf) (h' : m'.wf) (hg : ∀ a, m.get a = m'.get a) : m = m' := by
  induction m generalizing m' with
  | nil =>
    cases m' with
    | nil => rfl
    | cons c m' => have := hg c.1; simp [Memory.get, Memory.unlisted] at this
  | cons c m ih =>
    cases m' with
    | nil => have := hg c.1; simp [Memory.get, Memory.unlisted] at this
    | cons d m' =>
      obtain ⟨k, v⟩ := c
      obtain ⟨k', v'⟩ := d
      obtain ⟨h1, h2⟩ := List.pairwise_cons.mp h
      obtain ⟨h1', h2'⟩ := List.pairwise_cons.mp h'
      have above : ∀ {x y : Nat} {w : Byte} {l : Memory}, (∀ c ∈ l, y < c.1) → x < y →
          Memory.get ((y, w) :: l) x = none := fun hl hxy =>
        Memory.get_eq_none fun c hc => (List.mem_cons.mp hc).elim (fun h => h ▸ hxy) fun h => hxy.trans (hl c h)
      have hkk : k = k' := by
        by_contra hne
        rcases Nat.lt_or_gt_of_ne hne with hl | hl
        · have := hg k; rw [above h1' hl] at this; simp [Memory.get] at this
        · have := hg k'; rw [above h1 hl] at this; simp [Memory.get] at this
      subst hkk
      have hv : v = v' := by have := hg k; simpa [Memory.get] using this
      subst hv
      rw [ih h2 h2' fun a => ?_]
      by_cases ha : k = a
      · subst ha; rw [Memory.get_eq_none h1, Memory.get_eq_none h1']
      · have := hg a; simpa [Memory.get, ha] using this

end Sys2Proof.Machine
end

