-- ==== Sys2Proof/Laws/Operands.lean ====
section
/-! SUPPORT. The two datapaths in plain arithmetic: each byte of an encoded record as a number, the reference decoder as
sums, byte order, the index check. -/

namespace Sys2Proof.Machine

@[simp] theorem byteOf_toNat (v : Nat) : (byteOf v).toNat = v % 256 := by simp [byteOf]

theorem slice_eq (v hi lo : Nat) : slice v hi lo = v / 2 ^ lo % 2 ^ (hi - lo + 1) := by
  simp [slice, Nat.shiftRight_eq_div_pow]

/-- Bits that do not overlap add up. -/
theorem or_shiftLeft (a b k : Nat) (h : a < 2 ^ k) : a ||| (b <<< k) = a + 2 ^ k * b := by
  rw [Nat.or_comm, ← Nat.shiftLeft_add_eq_or_of_lt h, Nat.shiftLeft_eq]; ring

/-- Every byte of an encoded record, as a number. -/
theorem encodeEntry_toNat (base limit : Nat) (access gran : Byte) :
    let e := encodeEntry base limit access gran
    e.b0.toNat = limit % 2 ^ 20 % 256 ∧ e.b1.toNat = limit % 2 ^ 20 / 256 % 256 ∧
    e.b2.toNat = base % 2 ^ 32 % 256 ∧ e.b3.toNat = base % 2 ^ 32 / 2 ^ 8 % 256 ∧
    e.b4.toNat = base % 2 ^ 32 / 2 ^ 16 % 256 ∧ e.b5 = access ∧
    e.b6.toNat = gran.toNat / 16 * 16 + limit % 2 ^ 20 / 2 ^ 16 ∧ e.b7.toNat = base % 2 ^ 32 / 2 ^ 24 := by
  have hg := gran.isLt
  have h6 : (slice gran.toNat 7 4 <<< 4) ||| slice (mask 20 limit) 19 16
      = gran.toNat / 16 % 16 * 16 + limit % 2 ^ 20 / 2 ^ 16 % 16 := by
    rw [Nat.or_comm, or_shiftLeft _ _ _ (by rw [slice_eq]; omega)]; simp [slice_eq, mask]; omega
  simp only [encodeEntry, byteOf_toNat, h6]
  simp only [slice_eq, mask]
  refine ⟨?_, ?_, ?_, ?_, ?_, trivial, ?_, ?_⟩ <;> omega

/-- The reference decoder's fields as sums. -/
theorem decodeEntry_sums (e : Entry) :
    (decodeEntry e).base = e.b2.toNat + 2 ^ 8 * e.b3.toNat + 2 ^ 16 * e.b4.toNat + 2 ^ 24 * e.b7.toNat ∧
    (decodeEntry e).limit = e.b0.toNat + 2 ^ 8 * e.b1.toNat + 2 ^ 16 * (e.b6.toNat % 16) ∧
    (decodeEntry e).access = e.b5 ∧ (decodeEntry e).gflags.toNat = e.b6.toNat / 16 * 16 := by
  have h0 := e.b0.isLt
  have h1 := e.b1.isLt
  have h2 := e.b2.isLt
  have h3 := e.b3.isLt
  have h4 := e.b4.isLt
  have hlow : e.b6.toNat &&& 0x0F = e.b6.toNat % 16 := Nat.and_two_pow_sub_one_eq_mod _ 4
  have hhigh : ∀ b : Byte, (b &&& 0xF0#8).toNat = b.toNat / 16 * 16 := by decide
  refine ⟨?_, ?_, rfl, hhigh e.b6⟩
  · simp only [decodeEntry]
    rw [or_shiftLeft _ _ 8 (by omega), or_shiftLeft _ _ 16 (by omega), or_shiftLeft _ _ 24 (by omega)]
  · simp only [decodeEntry, hlow]
    rw [or_shiftLeft _ _ 8 (by omega), or_shiftLeft _ _ 16 (by omega)]

/-- Records are equal where their bytes are equal numbers. -/
theorem entry_eq_of_toNat {e f : Entry} (h0 : e.b0.toNat = f.b0.toNat) (h1 : e.b1.toNat = f.b1.toNat)
    (h2 : e.b2.toNat = f.b2.toNat) (h3 : e.b3.toNat = f.b3.toNat) (h4 : e.b4.toNat = f.b4.toNat)
    (h5 : e.b5 = f.b5) (h6 : e.b6.toNat = f.b6.toNat) (h7 : e.b7.toNat = f.b7.toNat) : e = f := by
  cases e; cases f
  simp only [Entry.mk.injEq]
  exact ⟨BitVec.eq_of_toNat_eq h0, BitVec.eq_of_toNat_eq h1, BitVec.eq_of_toNat_eq h2, BitVec.eq_of_toNat_eq h3,
    BitVec.eq_of_toNat_eq h4, h5, BitVec.eq_of_toNat_eq h6, BitVec.eq_of_toNat_eq h7⟩

@[simp] theorem entryBytesOf_length (e : Entry) : (entryBytesOf e).length = 8 := rfl

@[simp] theorem le_length (n v : Nat) : (le n v).length = n := by
  induction n generalizing v with
  | zero => rfl
  | succ n ih => simp [le, ih]

/-- The bytes of `v`, read back, are `v` below its width. -/
theorem fromLe_le (n v : Nat) : fromLe (le n v) = v % 2 ^ (8 * n) := by
  induction n generalizing v with
  | zero => simp [le, fromLe, Nat.mod_one]
  | succ n ih =>
    have hp : 2 ^ (8 * (n + 1)) = 256 * 2 ^ (8 * n) := by rw [Nat.mul_succ, pow_add]; ring
    simp only [le, fromLe, ih, byteOf_toNat, slice_eq, Nat.shiftRight_eq_div_pow, hp, Nat.mod_mul]
    norm_num

/-- Byte `k` of the N bytes of `v`. -/
theorem le_getElem? {n k : Nat} (v : Nat) (h : k < n) : (le n v)[k]? = some (BitVec.ofNat 8 (v / 2 ^ (8 * k))) := by
  induction n generalizing v k with
  | zero => omega
  | succ n ih =>
    cases k with
    | zero =>
      simp only [le, List.getElem?_cons_zero, byteOf, slice_eq]
      congr 1; apply BitVec.eq_of_toNat_eq; simp
    | succ k =>
      simp only [le, List.getElem?_cons_succ, ih _ (by omega : k < n), Nat.shiftRight_eq_div_pow,
        Nat.div_div_eq_div_mul, ← pow_add]
      congr 3; ring

@[simp] theorem fmtreg_length (w : AddrBytes) (addr : Nat) : (fmtreg w addr).length = w.regBytes := by
  simp [fmtreg, AddrBytes.regBytes]

/-- The record INIT writes is the image of the record it keeps. -/
theorem gdtrImage_regLimit (w : AddrBytes) (addr : Nat) : gdtrImage w ⟨129#16, addr⟩ = fmtreg w addr := rfl

theorem slotIndex_eq_some {index : Int} {i : Fin 16} : slotIndex index = some i ↔ index = (i.val : Int) := by
  have hi := i.isLt
  unfold slotIndex
  split_ifs with h
  · simp only [inRange] at h
    rw [Option.some.injEq, Fin.ext_iff]
    show index.toNat = i.val ↔ _
    omega
  · simp only [inRange] at h; constructor
    · intro h'; cases h'
    · intro h'; omega

theorem slotIndex_eq_none {index : Int} : slotIndex index = none ↔ ¬inRange index := by
  unfold slotIndex
  split_ifs with h <;> simp [h]

/-- The slots lie in the table region. -/
theorem slotAddr_bounds (ta : Nat) (i : Fin 16) : ta ≤ slotAddr ta i ∧ slotAddr ta i + 8 ≤ ta + tableBytes := by
  have := i.isLt
  simp only [slotAddr, tableBytes, entries, entryBytes]; omega

/-- The three data reloads are DS, ES and SS in some order. -/
theorem reloadSegs_perm (o : ReloadOrder) :
    [(reloadSegs o).1, (reloadSegs o).2.1, (reloadSegs o).2.2].Perm [.ds, .es, .ss] := by
  cases o <;> decide

@[simp] theorem loadSeq_length (c : Config) (ra : Nat) (g : GdtrRec) (cs ds ts : Selector) :
    (loadSeq c ra g cs ds ts).length = 6 := rfl

end Sys2Proof.Machine
end

