-- ==== Sys2Proof/Laws/State.lean ====
section
/-! SUPPORT. One lemma per field of State per named update, true by rfl: later proofs rewrite with these and unfold no
record update. -/

namespace Sys2Proof.Machine

@[simp] theorem respond_cfg (st : Status) (r : List Byte) (s : State) : (respond st r s).cfg = s.cfg := rfl
@[simp] theorem respond_block (st : Status) (r : List Byte) (s : State) : (respond st r s).block = s.block := rfl
@[simp] theorem respond_mem (st : Status) (r : List Byte) (s : State) : (respond st r s).mem = s.mem := rfl
@[simp] theorem respond_pending (st : Status) (r : List Byte) (s : State) : (respond st r s).pending = s.pending := rfl
@[simp] theorem respond_pos (st : Status) (r : List Byte) (s : State) : (respond st r s).pos = s.pos := rfl
@[simp] theorem respond_resp (st : Status) (r : List Byte) (s : State) : (respond st r s).resp = some ⟨st, r⟩ := rfl
@[simp] theorem respond_env (st : Status) (r : List Byte) (s : State) : (respond st r s).env = s.env := rfl

@[simp] theorem accept_cfg (r : List Byte) (s : State) : (accept r s).cfg = s.cfg := rfl
@[simp] theorem accept_block (r : List Byte) (s : State) : (accept r s).block = s.block := rfl
@[simp] theorem accept_mem (r : List Byte) (s : State) : (accept r s).mem = s.mem := rfl
@[simp] theorem accept_pending (r : List Byte) (s : State) : (accept r s).pending = s.pending := rfl
@[simp] theorem accept_pos (r : List Byte) (s : State) : (accept r s).pos = s.pos := rfl
@[simp] theorem accept_resp (r : List Byte) (s : State) : (accept r s).resp = some ⟨.ok, r⟩ := rfl
@[simp] theorem accept_env (r : List Byte) (s : State) : (accept r s).env = s.env := rfl

@[simp] theorem reject_cfg (r : Rejection) (s : State) : (reject r s).cfg = s.cfg := rfl
@[simp] theorem reject_block (r : Rejection) (s : State) : (reject r s).block = { s.block with rejects := setReject r s.block.rejects } := rfl
@[simp] theorem reject_mem (r : Rejection) (s : State) : (reject r s).mem = s.mem := rfl
@[simp] theorem reject_pending (r : Rejection) (s : State) : (reject r s).pending = s.pending := rfl
@[simp] theorem reject_pos (r : Rejection) (s : State) : (reject r s).pos = s.pos := rfl
@[simp] theorem reject_resp (r : Rejection) (s : State) : (reject r s).resp = some ⟨.rejected r, []⟩ := rfl
@[simp] theorem reject_env (r : Rejection) (s : State) : (reject r s).env = s.env := rfl

@[simp] theorem raise_cfg (f : Fatal) (s : State) : (raise f s).cfg = s.cfg := rfl
@[simp] theorem raise_block (f : Fatal) (s : State) : (raise f s).block = { s.block with fault := some f } := rfl
@[simp] theorem raise_mem (f : Fatal) (s : State) : (raise f s).mem = s.mem := rfl
@[simp] theorem raise_pending (f : Fatal) (s : State) : (raise f s).pending = s.pending := rfl
@[simp] theorem raise_pos (f : Fatal) (s : State) : (raise f s).pos = s.pos := rfl
@[simp] theorem raise_resp (f : Fatal) (s : State) : (raise f s).resp = some ⟨.fatal f, []⟩ := rfl
@[simp] theorem raise_env (f : Fatal) (s : State) : (raise f s).env = s.env := rfl

@[simp] theorem takeAlloc_cfg (s : State) : (takeAlloc s).cfg = s.cfg := rfl
@[simp] theorem takeAlloc_block (s : State) : (takeAlloc s).block = s.block := rfl
@[simp] theorem takeAlloc_mem (s : State) : (takeAlloc s).mem = s.mem := rfl
@[simp] theorem takeAlloc_pending (s : State) : (takeAlloc s).pending = s.pending := rfl
@[simp] theorem takeAlloc_pos (s : State) : (takeAlloc s).pos = s.pos := rfl
@[simp] theorem takeAlloc_resp (s : State) : (takeAlloc s).resp = s.resp := rfl
@[simp] theorem takeAlloc_env (s : State) : (takeAlloc s).env = { s.env with allocs := s.env.allocs.tail, draws := s.env.draws + 1 } := rfl

@[simp] theorem receiveTable_cfg (ta : Nat) (s : State) : (receiveTable ta s).cfg = s.cfg := rfl
@[simp] theorem receiveTable_block (ta : Nat) (s : State) : (receiveTable ta s).block = s.block := rfl
@[simp] theorem receiveTable_mem (ta : Nat) (s : State) : (receiveTable ta s).mem = s.mem.write ta (leftBytes s.env.draws ta) := rfl
@[simp] theorem receiveTable_pending (ta : Nat) (s : State) : (receiveTable ta s).pending = s.pending := rfl
@[simp] theorem receiveTable_pos (ta : Nat) (s : State) : (receiveTable ta s).pos = s.pos := rfl
@[simp] theorem receiveTable_resp (ta : Nat) (s : State) : (receiveTable ta s).resp = s.resp := rfl
@[simp] theorem receiveTable_env (ta : Nat) (s : State) : (receiveTable ta s).env = s.env := rfl

@[simp] theorem takeVerdict_cfg (s : State) : (takeVerdict s).cfg = s.cfg := rfl
@[simp] theorem takeVerdict_block (s : State) : (takeVerdict s).block = s.block := rfl
@[simp] theorem takeVerdict_mem (s : State) : (takeVerdict s).mem = s.mem := rfl
@[simp] theorem takeVerdict_pending (s : State) : (takeVerdict s).pending = s.pending := rfl
@[simp] theorem takeVerdict_pos (s : State) : (takeVerdict s).pos = s.pos := rfl
@[simp] theorem takeVerdict_resp (s : State) : (takeVerdict s).resp = s.resp := rfl
@[simp] theorem takeVerdict_env (s : State) : (takeVerdict s).env = { s.env with verdicts := s.env.verdicts.tail, draws := s.env.draws + 1 } := rfl

@[simp] theorem powerReset_cfg (s : State) : (powerReset s).cfg = s.cfg := rfl
@[simp] theorem powerReset_block (s : State) : (powerReset s).block = Block.reset := rfl
@[simp] theorem powerReset_mem (s : State) : (powerReset s).mem = s.mem := rfl
@[simp] theorem powerReset_pending (s : State) : (powerReset s).pending = s.pending := rfl
@[simp] theorem powerReset_pos (s : State) : (powerReset s).pos = 0 := rfl
@[simp] theorem powerReset_resp (s : State) : (powerReset s).resp = none := rfl
@[simp] theorem powerReset_env (s : State) : (powerReset s).env = s.env := rfl

@[simp] theorem advance_cfg (s : State) : (advance s).cfg = s.cfg := rfl
@[simp] theorem advance_block (s : State) : (advance s).block = s.block := rfl
@[simp] theorem advance_mem (s : State) : (advance s).mem = s.mem := rfl
@[simp] theorem advance_pending (s : State) : (advance s).pending = s.pending.tail := rfl
@[simp] theorem advance_pos (s : State) : (advance s).pos = s.pos + 1 := rfl
@[simp] theorem advance_resp (s : State) : (advance s).resp = s.resp := rfl
@[simp] theorem advance_env (s : State) : (advance s).env = s.env := rfl

@[simp] theorem dropInput_cfg (s : State) : (dropInput s).cfg = s.cfg := rfl
@[simp] theorem dropInput_block (s : State) : (dropInput s).block = s.block := rfl
@[simp] theorem dropInput_mem (s : State) : (dropInput s).mem = s.mem := rfl
@[simp] theorem dropInput_pending (s : State) : (dropInput s).pending = s.pending.tail := rfl
@[simp] theorem dropInput_pos (s : State) : (dropInput s).pos = s.pos := rfl
@[simp] theorem dropInput_resp (s : State) : (dropInput s).resp = s.resp := rfl
@[simp] theorem dropInput_env (s : State) : (dropInput s).env = s.env := rfl

@[simp] theorem presentCommand_cfg (c : Command) (s : State) : (presentCommand c s).cfg = s.cfg := rfl
@[simp] theorem presentCommand_block (c : Command) (s : State) : (presentCommand c s).block = s.block := rfl
@[simp] theorem presentCommand_mem (c : Command) (s : State) : (presentCommand c s).mem = s.mem := rfl
@[simp] theorem presentCommand_pending (c : Command) (s : State) : (presentCommand c s).pending = .command c :: s.pending.tail := rfl
@[simp] theorem presentCommand_pos (c : Command) (s : State) : (presentCommand c s).pos = s.pos := rfl
@[simp] theorem presentCommand_resp (c : Command) (s : State) : (presentCommand c s).resp = s.resp := rfl
@[simp] theorem presentCommand_env (c : Command) (s : State) : (presentCommand c s).env = s.env := rfl

@[simp] theorem installAt_cfg (ta : Nat) (i : Fin 16) (e : Entry) (s : State) : (installAt ta i e s).cfg = s.cfg := rfl
@[simp] theorem installAt_block (ta : Nat) (i : Fin 16) (e : Entry) (s : State) : (installAt ta i e s).block = { s.block with slots := s.block.slots.set i (some e) } := rfl
@[simp] theorem installAt_mem (ta : Nat) (i : Fin 16) (e : Entry) (s : State) : (installAt ta i e s).mem = s.mem.write (slotAddr ta i) (entryBytesOf e) := rfl
@[simp] theorem installAt_pending (ta : Nat) (i : Fin 16) (e : Entry) (s : State) : (installAt ta i e s).pending = s.pending := rfl
@[simp] theorem installAt_pos (ta : Nat) (i : Fin 16) (e : Entry) (s : State) : (installAt ta i e s).pos = s.pos := rfl
@[simp] theorem installAt_resp (ta : Nat) (i : Fin 16) (e : Entry) (s : State) : (installAt ta i e s).resp = s.resp := rfl
@[simp] theorem installAt_env (ta : Nat) (i : Fin 16) (e : Entry) (s : State) : (installAt ta i e s).env = s.env := rfl

@[simp] theorem emit_cfg (es : List Event) (s : State) : (emit es s).cfg = s.cfg := rfl
@[simp] theorem emit_block (es : List Event) (s : State) : (emit es s).block = { s.block with events := s.block.events ++ es } := rfl
@[simp] theorem emit_mem (es : List Event) (s : State) : (emit es s).mem = s.mem := rfl
@[simp] theorem emit_pending (es : List Event) (s : State) : (emit es s).pending = s.pending := rfl
@[simp] theorem emit_pos (es : List Event) (s : State) : (emit es s).pos = s.pos := rfl
@[simp] theorem emit_resp (es : List Event) (s : State) : (emit es s).resp = s.resp := rfl
@[simp] theorem emit_env (es : List Event) (s : State) : (emit es s).env = s.env := rfl

end Sys2Proof.Machine
end

