-- ==== Sys2Proof/Laws/Exec.lean ====
section
/-! SUPPORT. What a shared operation, a meaning and a step can do, said once: if it answers next, then one of these. -/

namespace Sys2Proof.Machine

theorem whenRunning_next {s t : State} {k : Result} :
    whenRunning s k = .next t ↔ s.block.fault = none ∧ k = .next t := by
  unfold whenRunning
  split_ifs with h <;> simp [h]

theorem whenRunning_of_running {s : State} {k : Result} (h : s.block.fault = none) : whenRunning s k = k :=
  if_pos h

theorem whenRunning_of_fault {s : State} {k : Result} (h : s.block.fault ≠ none) :
    whenRunning s k = .fault .halted :=
  if_neg h

/-- Every answer of the allocator meets the duties of R48. -/
theorem allocAnswer_duties {s : State} {a : AllocPair} (h : allocAnswer s = some a) :
    allocDuties s.cfg.addrBytes a = true := by
  unfold allocAnswer at h
  split at h
  · split_ifs at h with hd; cases h; exact hd
  · cases h; unfold boundAlloc; split_ifs with hd
    · exact hd
    · rfl

theorem freeActive_addr {s : State} {act : Activation} (h : freeActive s = some act) :
    act.gdtrAddr < s.cfg.addrBytes.space := by
  simp only [freeActive, Option.map_eq_some_iff] at h
  obtain ⟨a, -, rfl⟩ := h
  exact Nat.mod_lt _ (Nat.two_pow_pos _)

theorem execEncode_next {b l : Nat} {a g : Byte} {s t : State} (h : execEncode b l a g s = .next t) :
    s.block.fault = none ∧ t = accept (entryBytesOf (encodeEntry b l a g)) s := by
  obtain ⟨hf, hk⟩ := whenRunning_next.mp h
  exact ⟨hf, by cases hk; rfl⟩

theorem execFmtreg_next {addr : Nat} {s t : State} (h : execFmtreg addr s = .next t) :
    s.block.fault = none ∧ addr < s.cfg.addrBytes.space ∧ t = accept (fmtreg s.cfg.addrBytes addr) s := by
  obtain ⟨hf, hk⟩ := whenRunning_next.mp h
  split_ifs at hk with ha
  exact ⟨hf, ha, by cases hk; rfl⟩

theorem execInit_next {s t : State} (h : execInit s = .next t) :
    s.block.fault = none ∧
      ((s.block.phase ≠ .uninit ∧ t = reject .reinit s) ∨
        (s.block.phase = .uninit ∧ ∃ a, allocAnswer s = some a ∧ t = initWith a (takeAlloc s))) := by
  obtain ⟨hf, hk⟩ := whenRunning_next.mp h
  refine ⟨hf, ?_⟩
  split_ifs at hk with hp
  · exact .inl ⟨hp, by cases hk; rfl⟩
  · split at hk
    · cases hk
    · next a ha => exact .inr ⟨not_not.mp hp, a, ha, by cases hk; rfl⟩

theorem execInstall_next {index : Int} {b l : Nat} {ac g : Byte} {s t : State}
    (h : execInstall index b l ac g s = .next t) :
    s.block.fault = none ∧
      ((s.block.phase = .uninit ∧ t = reject .notAlloc s) ∨
        (s.block.phase ≠ .uninit ∧ ¬inRange index ∧ t = reject .index s) ∨
        (s.block.phase ≠ .uninit ∧ ∃ i ta, slotIndex index = some i ∧ s.block.tableAddr = some ta ∧
          slotAddr ta i + 8 ≤ s.cfg.addrBytes.space ∧
          t = accept [] (installAt ta i (encodeEntry b l ac g) s))) := by
  obtain ⟨hf, hk⟩ := whenRunning_next.mp h
  refine ⟨hf, ?_⟩
  split_ifs at hk with hp
  · exact .inl ⟨hp, by cases hk; rfl⟩
  · split at hk
    · next hi => exact .inr (.inl ⟨hp, slotIndex_eq_none.mp hi, by cases hk; rfl⟩)
    · next i hi =>
      split at hk
      · cases hk
      · next ta hta =>
        split_ifs at hk with hb
        exact .inr (.inr ⟨hp, i, ta, hi, hta, hb, by cases hk; rfl⟩)

theorem execReadslot_next {index : Int} {s t : State} (h : execReadslot index s = .next t) :
    s.block.fault = none ∧
      ((s.block.phase = .uninit ∧ t = reject .notAlloc s) ∨
        (s.block.phase ≠ .uninit ∧ ¬inRange index ∧ t = reject .index s) ∨
        (s.block.phase ≠ .uninit ∧ ∃ i, slotIndex index = some i ∧ s.block.slots[i] = none ∧
          t = reject .unwritten s) ∨
        (s.block.phase ≠ .uninit ∧ ∃ i e, slotIndex index = some i ∧ s.block.slots[i] = some e ∧
          t = accept (entryBytesOf e) s)) := by
  obtain ⟨hf, hk⟩ := whenRunning_next.mp h
  refine ⟨hf, ?_⟩
  split_ifs at hk with hp
  · exact .inl ⟨hp, by cases hk; rfl⟩
  · split at hk
    · next hi => exact .inr (.inl ⟨hp, slotIndex_eq_none.mp hi, by cases hk; rfl⟩)
    · next i hi =>
      split at hk
      · next he => exact .inr (.inr (.inl ⟨hp, i, hi, he, by cases hk; rfl⟩))
      · next e he => exact .inr (.inr (.inr ⟨hp, i, e, hi, he, by cases hk; rfl⟩))

/-- What LOAD leaves once its record is found: the accepted state or the faulted one. -/
theorem loadWith_cases (ra : Nat) (g : GdtrRec) (c d ts : Selector) (s : State) :
    let seq := loadSeq s.cfg ra g c d ts
    (verdictAnswer s seq = .ok ∧
      loadWith ra g c d ts s = loadAccepted seq (activation g c d ts s.block.slots) (takeVerdict s)) ∨
    (∃ k, verdictAnswer s seq = .fault k ∧ loadWith ra g c d ts s = loadFaulted seq k (takeVerdict s)) := by
  intro seq
  cases hv : verdictAnswer s seq with
  | ok => exact .inl ⟨rfl, by simp only [loadWith]; rw [show verdictAnswer s _ = _ from hv]⟩
  | fault k => exact .inr ⟨k, rfl, by simp only [loadWith]; rw [show verdictAnswer s _ = _ from hv]⟩

theorem execLoad_next {c d ts : Selector} {s t : State} (h : execLoad c d ts s = .next t) :
    s.block.fault = none ∧
      ((s.block.phase = .uninit ∧ t = reject .notAlloc s) ∨
        (s.block.phase ≠ .uninit ∧ ∃ ra g, s.block.regAddr = some ra ∧ s.block.gdtrRec = some g ∧
          t = loadWith ra g c d ts s)) := by
  obtain ⟨hf, hk⟩ := whenRunning_next.mp h
  refine ⟨hf, ?_⟩
  split_ifs at hk with hp
  · exact .inl ⟨hp, by cases hk; rfl⟩
  · split at hk
    · next ra g hra hg => exact .inr ⟨hp, ra, g, hra, hg, by cases hk; rfl⟩
    · cases hk

theorem execReserved110_next {s t : State} (h : execReserved110 s = .next t) :
    s.block.fault = none ∧ t = reject .illegal s := by
  obtain ⟨hf, hk⟩ := whenRunning_next.mp h
  exact ⟨hf, by cases hk; rfl⟩

theorem execReserved111_next {s t : State} (h : execReserved111 s = .next t) :
    s.block.fault = none ∧ t = reject .illegal s := by
  obtain ⟨hf, hk⟩ := whenRunning_next.mp h
  exact ⟨hf, by cases hk; rfl⟩

/-- The bit a rejection sets, as a mask. -/
theorem setReject_eq (r : Rejection) (b : BitVec 8) : setReject r b = b ||| BitVec.ofNat 8 (2 ^ rejectionCode r) := by
  cases r <;> rfl

/-- Answers that meet the duties leave the two regions in memory and apart. -/
theorem allocDuties_some {w : AddrBytes} {ta ra : Nat} (h : allocDuties w ⟨some ta, some ra⟩ = true) :
    ta + tableBytes ≤ w.space ∧ ra + w.regBytes ≤ w.space ∧ (ta + tableBytes ≤ ra ∨ ra + w.regBytes ≤ ta) := by
  simpa [allocDuties] using h

theorem initWith_some (ta ra : Nat) (s : State) : initWith ⟨some ta, some ra⟩ s = accept []
    { s with
      block := { s.block with
        tableAddr := some ta
        regAddr := some ra
        slots := Vector.replicate 16 none
        gdtrRec := some ⟨regLimit, ta⟩
        phase := .allocated }
      mem := (receiveTable ta s).mem.write ra (fmtreg s.cfg.addrBytes ta) } := rfl

@[simp] theorem leftBytes_length (n ta : Nat) : (leftBytes n ta).length = tableBytes := by simp [leftBytes]

/-- Every byte of a table region just handed out is the allocator's draw, and no other byte changed. -/
theorem receiveTable_get (ta x : Nat) (s : State) :
    (receiveTable ta s).mem.get x =
      if ta ≤ x ∧ x < ta + tableBytes then some (Config.leftByte s.env.draws x) else s.mem.get x := by
  rw [receiveTable_mem, Memory.get_write, leftBytes_length]
  refine ite_congr rfl (fun h => ?_) fun _ => rfl
  simp only [leftBytes, List.getElem?_map]
  rw [List.getElem?_range (by omega), Option.map_some, Nat.add_sub_cancel' h.1]

theorem initWith_fail {a : AllocPair} (s : State) (h : a.table = none ∨ a.reg = none) :
    initWith a s = raise .eAlloc s := by
  obtain ⟨t, r⟩ := a
  cases t <;> cases r <;> simp_all [initWith]

/-- INIT's answers: a failure is fatal, or both are there. -/
theorem initWith_cases (a : AllocPair) (s : State) :
    initWith a s = raise .eAlloc s ∨ ∃ ta ra, a = ⟨some ta, some ra⟩ := by
  obtain ⟨t, r⟩ := a
  cases t <;> cases r <;> simp_all [initWith]

/-- All a command that steps can have done. -/
inductive Effect (i : Instr) (s t : State) : Prop where
  /-- Rejected. -/
  | rejected (r : Rejection) (h : t = reject r s)
  /-- Answered, with no state written. -/
  | answered (bs : List Byte) (h : t = accept bs s)
  /-- INIT, an allocation failed. -/
  | allocFailed (hi : i = .init) (hp : s.block.phase = .uninit) (h : t = raise .eAlloc (takeAlloc s))
  /-- INIT, both answered. -/
  | allocated (hi : i = .init) (hp : s.block.phase = .uninit) (ta ra : Nat)
      (ha : allocAnswer s = some ⟨some ta, some ra⟩) (h : t = initWith ⟨some ta, some ra⟩ (takeAlloc s))
  /-- INSTALL wrote slot `k`. -/
  | installed (k : Fin 16) (b l : Nat) (a g : Byte) (ta : Nat) (hi : i = .install (k.val : Int) b l a g)
      (hp : s.block.phase ≠ .uninit) (hta : s.block.tableAddr = some ta)
      (hb : slotAddr ta k + 8 ≤ s.cfg.addrBytes.space)
      (h : t = accept [] (installAt ta k (encodeEntry b l a g) s))
  /-- LOAD under the verdict OK. -/
  | loaded (c d ts : Selector) (ra : Nat) (g : GdtrRec) (hi : i = .load c d ts) (hp : s.block.phase ≠ .uninit)
      (hra : s.block.regAddr = some ra) (hg : s.block.gdtrRec = some g)
      (hv : verdictAnswer s (loadSeq s.cfg ra g c d ts) = .ok)
      (h : t = loadAccepted (loadSeq s.cfg ra g c d ts) (activation g c d ts s.block.slots) (takeVerdict s))
  /-- LOAD under a verdict Fault(k). -/
  | faulted (c d ts : Selector) (ra : Nat) (g : GdtrRec) (k : Fin 6) (hi : i = .load c d ts)
      (hp : s.block.phase ≠ .uninit) (hra : s.block.regAddr = some ra) (hg : s.block.gdtrRec = some g)
      (hv : verdictAnswer s (loadSeq s.cfg ra g c d ts) = .fault k)
      (h : t = loadFaulted (loadSeq s.cfg ra g c d ts) k (takeVerdict s))

/-- A command that answers a next state found FAULT = NONE and had one of these effects. -/
theorem exec_next {i : Instr} {s t : State} (h : exec i s = .next t) : s.block.fault = none ∧ Effect i s t := by
  cases i with
  | encode b l a g => obtain ⟨hf, rfl⟩ := execEncode_next h; exact ⟨hf, .answered _ rfl⟩
  | fmtreg a => obtain ⟨hf, -, rfl⟩ := execFmtreg_next h; exact ⟨hf, .answered _ rfl⟩
  | init =>
    obtain ⟨hf, ⟨hp, rfl⟩ | ⟨hp, a, ha, rfl⟩⟩ := execInit_next h
    · exact ⟨hf, .rejected _ rfl⟩
    · obtain he | ⟨ta, ra, rfl⟩ := initWith_cases a (takeAlloc s)
      · exact ⟨hf, .allocFailed rfl hp he⟩
      · exact ⟨hf, .allocated rfl hp ta ra ha rfl⟩
  | install x b l a g =>
    obtain ⟨hf, ⟨-, rfl⟩ | ⟨-, -, rfl⟩ | ⟨hp, k, ta, hk, hta, hb, rfl⟩⟩ := execInstall_next h
    · exact ⟨hf, .rejected _ rfl⟩
    · exact ⟨hf, .rejected _ rfl⟩
    · exact ⟨hf, .installed k b l a g ta (by rw [slotIndex_eq_some.mp hk]) hp hta hb rfl⟩
  | readslot x =>
    obtain ⟨hf, ⟨-, rfl⟩ | ⟨-, -, rfl⟩ | ⟨-, k, -, -, rfl⟩ | ⟨-, k, e, -, -, rfl⟩⟩ := execReadslot_next h
    · exact ⟨hf, .rejected _ rfl⟩
    · exact ⟨hf, .rejected _ rfl⟩
    · exact ⟨hf, .rejected _ rfl⟩
    · exact ⟨hf, .answered _ rfl⟩
  | load c d ts =>
    obtain ⟨hf, ⟨-, rfl⟩ | ⟨hp, ra, g, hra, hg, rfl⟩⟩ := execLoad_next h
    · exact ⟨hf, .rejected _ rfl⟩
    · obtain ⟨hv, he⟩ | ⟨k, hv, he⟩ := loadWith_cases ra g c d ts s
      · exact ⟨hf, .loaded c d ts ra g rfl hp hra hg hv he⟩
      · exact ⟨hf, .faulted c d ts ra g k rfl hp hra hg hv he⟩
  | reserved110 => obtain ⟨hf, rfl⟩ := execReserved110_next h; exact ⟨hf, .rejected _ rfl⟩
  | reserved111 => obtain ⟨hf, rfl⟩ := execReserved111_next h; exact ⟨hf, .rejected _ rfl⟩

/-- All a step can do: wait, reset, or run the command that was presented. -/
theorem step_next {s t : State} (h : step s = .next t) :
    (s.pending = [] ∧ s.block.fault = none ∧ t = s) ∨
      (s.pending.head? = some .reset ∧ t = powerReset (dropInput s)) ∨
      (∃ c i, s.pending.head? = some (.command c) ∧ s.block.fault = none ∧
        decode s.cfg.addrBytes c = .ok i ∧ exec i (advance s) = .next t) := by
  unfold step fetch at h
  cases hp : s.pending with
  | nil =>
    simp only [hp] at h
    split_ifs at h with hf
    exact .inl ⟨rfl, hf, by cases h; rfl⟩
  | cons x rest =>
    cases x with
    | reset =>
      simp only [hp] at h
      exact .inr (.inl ⟨rfl, by cases h; rfl⟩)
    | command c =>
      simp only [hp] at h
      split_ifs at h with hf
      cases hd : decode s.cfg.addrBytes c with
      | error e => rw [hd] at h; cases h
      | ok i => rw [hd] at h; exact .inr (.inr ⟨c, i, rfl, hf, hd, h⟩)

end Sys2Proof.Machine
end

