-- ==== Sys2Proof/Laws/PerInstr.lean ====
section
/-! SUPPORT. Families of statements made per instruction. `EncodedShape`: the record of an instruction has as many
operands as its OP names (R66). -/

namespace Sys2Proof.Laws.EncodedShape

/-- The record's operands are as many as its OP names. -/
def Statement (i : Instr) : Prop :=
  (Sys2Proof.encode i).operands.length = Sys2Proof.arity (Sys2Proof.encode i).op

theorem encode (base limit : Nat) (access gran : Byte) : Statement (.encode base limit access gran) := rfl

theorem fmtreg (addr : Nat) : Statement (.fmtreg addr) := rfl

theorem init : Statement .init := rfl

theorem install (index : Int) (base limit : Nat) (access gran : Byte) :
    Statement (.install index base limit access gran) := rfl

theorem readslot (index : Int) : Statement (.readslot index) := rfl

theorem load (codeSel dataSel tlsSel : Selector) : Statement (.load codeSel dataSel tlsSel) := rfl

theorem reserved110 : Statement .reserved110 := rfl

theorem reserved111 : Statement .reserved111 := rfl

end Sys2Proof.Laws.EncodedShape
end

