-- ==== Sys2Proof/Laws/Text.lean ====
section
/-! SUPPORT. The written literal reads back: digits, naturals, integers, and that a literal holds none of the
separators. -/

namespace Sys2Proof.Machine

theorem decDigit_digitChar {d : Nat} (h : d < 10) : decDigit (digitChar d) = some d := by
  have : ∀ d : Fin 10, decDigit (digitChar d.val) = some d.val := by decide
  exact this ⟨d, h⟩

/-- Reading what was written starts over from the number itself. -/
theorem readDigits_showDigits (fuel n : Nat) (rest : List Char) (h : n < 10 ^ (fuel + 1)) :
    readDigits 10 decDigit 0 (showDigits fuel n rest) = readDigits 10 decDigit n rest := by
  induction fuel generalizing n rest with
  | zero =>
    have hn : n < 10 := by simpa using h
    simp [showDigits, readDigits, Nat.mod_eq_of_lt hn, decDigit_digitChar hn]
  | succ fuel ih =>
    rw [showDigits]
    split_ifs with hn
    · simp [readDigits, decDigit_digitChar hn]
    · have hdiv : n / 10 < 10 ^ (fuel + 1) := by
        rw [Nat.div_lt_iff_lt_mul (by norm_num)]; rwa [pow_succ] at h
      have hback : n / 10 * 10 + n % 10 = n := by omega
      rw [ih _ _ hdiv, readDigits, decDigit_digitChar (Nat.mod_lt n (by norm_num))]
      simp only [hback]

/-- A character of a written natural. -/
theorem mem_showDigits {fuel n : Nat} {rest : List Char} {c : Char} (h : c ∈ showDigits fuel n rest) :
    (∃ d, d < 10 ∧ c = digitChar d) ∨ c ∈ rest := by
  induction fuel generalizing n rest with
  | zero =>
    rw [showDigits, List.mem_cons] at h
    exact h.imp (fun h => ⟨n % 10, Nat.mod_lt _ (by norm_num), h⟩) id
  | succ fuel ih =>
    rw [showDigits] at h
    split_ifs at h with hn
    · rw [List.mem_cons] at h; exact h.imp (fun h => ⟨n, hn, h⟩) id
    · obtain h | h := ih h
      · exact .inl h
      · rw [List.mem_cons] at h
        exact h.imp (fun h => ⟨n % 10, Nat.mod_lt _ (by norm_num), h⟩) id

theorem showDigits_ne_nil (fuel n : Nat) (rest : List Char) : showDigits fuel n rest ≠ [] := by
  induction fuel generalizing n rest with
  | zero => simp [showDigits]
  | succ fuel ih => rw [showDigits]; split_ifs <;> simp [ih]

/-- A written natural is one or more decimal digits. -/
theorem showNat_digits (n : Nat) : showNat n ≠ [] ∧ ∀ c ∈ showNat n, ∃ d, d < 10 ∧ c = digitChar d :=
  ⟨showDigits_ne_nil _ _ _, fun _ hc => (mem_showDigits hc).resolve_right (by simp)⟩

theorem readDecimal_showNat (n : Nat) : readDecimal (showNat n) = some n := by
  have hlt : n < 10 ^ (n.log2 + 1) :=
    (Nat.lt_log2_self (n := n)).trans_le (Nat.pow_le_pow_left (by norm_num) _)
  have hread := readDigits_showDigits n.log2 n [] hlt
  cases hs : showNat n with
  | nil => exact absurd hs (showNat_digits n).1
  | cons c cs => rw [readDecimal, ← hs]; exact hread

/-- No digit is a separator, a blank, a sign or the `x` of `0x`. -/
theorem digitChar_plain {d : Nat} (h : d < 10) :
    digitChar d ≠ 'x' ∧ digitChar d ≠ '-' ∧ digitChar d ≠ ',' ∧ digitChar d ≠ '(' ∧ digitChar d ≠ ')' ∧
      isBlank (digitChar d) = false := by
  have : ∀ d : Fin 10, digitChar d.val ≠ 'x' ∧ digitChar d.val ≠ '-' ∧ digitChar d.val ≠ ',' ∧
      digitChar d.val ≠ '(' ∧ digitChar d.val ≠ ')' ∧ isBlank (digitChar d.val) = false := by decide
  exact this ⟨d, h⟩

/-- A written integer is not empty and holds no separator and no blank. -/
theorem showInt_plain (v : Int) :
    showInt v ≠ [] ∧ ∀ c ∈ showInt v, c ≠ ',' ∧ c ≠ '(' ∧ c ≠ ')' ∧ isBlank c = false := by
  have hnat : ∀ n, ∀ c ∈ showNat n, c ≠ ',' ∧ c ≠ '(' ∧ c ≠ ')' ∧ isBlank c = false := by
    intro n c hc
    obtain ⟨d, hd, rfl⟩ := (showNat_digits n).2 c hc
    exact (digitChar_plain hd).2.2
  cases v with
  | ofNat n => exact ⟨(showNat_digits n).1, hnat n⟩
  | negSucc n =>
    refine ⟨by simp [showInt], fun c hc => ?_⟩
    obtain rfl | hc := List.mem_cons.mp hc
    · decide
    · exact hnat _ c hc

/-- A written integer reads back. -/
theorem readLiteral_showInt (v : Int) : readLiteral (showInt v) = some v := by
  cases v with
  | ofNat n =>
    have hd := readDecimal_showNat n
    obtain ⟨hne, hdig⟩ := showNat_digits n
    rw [showInt]
    unfold readLiteral
    split
    · next c cs heq =>
      obtain ⟨d, hd, hx⟩ := hdig 'x' (by rw [heq]; simp)
      exact absurd hx.symm (digitChar_plain hd).1
    · next cs heq =>
      obtain ⟨d, hd, hx⟩ := hdig '-' (by rw [heq]; simp)
      exact absurd hx.symm (digitChar_plain hd).2.1
    · rw [hd]; rfl
  | negSucc n =>
    rw [showInt, readLiteral, readDecimal_showNat]
    · rfl

/-! ### Cutting and trimming -/

theorem cutAt_append {sep : Char} {a b : List Char} (h : ∀ c ∈ a, c ≠ sep) : cutAt sep (a ++ sep :: b) = some (a, b) := by
  induction a with
  | nil => simp [cutAt]
  | cons c a ih =>
    simp only [List.cons_append, cutAt, if_neg (h c (by simp)), ih fun c hc => h c (by simp [hc])]

theorem splitOn_plain {sep : Char} {a : List Char} (h : ∀ c ∈ a, c ≠ sep) : splitOn sep a = [a] := by
  induction a with
  | nil => rfl
  | cons c a ih => simp only [splitOn, if_neg (h c (by simp)), ih fun c hc => h c (by simp [hc])]

theorem splitOn_append {sep : Char} {a b : List Char} (h : ∀ c ∈ a, c ≠ sep) :
    splitOn sep (a ++ sep :: b) = a :: splitOn sep b := by
  induction a with
  | nil => simp [splitOn]
  | cons c a ih =>
    simp only [List.cons_append, splitOn, if_neg (h c (by simp)), ih fun c hc => h c (by simp [hc])]

theorem trimLeft_plain {a : List Char} (h : ∀ c ∈ a, isBlank c = false) : trimLeft a = a := by
  cases a with
  | nil => rfl
  | cons c a => simp [trimLeft, h c (by simp)]

theorem trim_plain {a : List Char} (h : ∀ c ∈ a, isBlank c = false) : trim a = a := by
  rw [trim, trimLeft_plain h, trimLeft_plain (by simpa using h)]; simp

theorem trim_blank_plain {a : List Char} (h : ∀ c ∈ a, isBlank c = false) : trim (' ' :: a) = a := by
  have hb : trimLeft (' ' :: a) = trimLeft a := by simp [trimLeft, isBlank]
  rw [trim, hb, ← trim, trim_plain h]

end Sys2Proof.Machine
end

