-- ==== Sys2Proof/Tests/Slice0.lean ====
section
/-! SUPPORT. The model's own tests: expected values come from the spec's vectors (95_test_vectors.md, named in each
comment) or are written out from its encodings. Then one witness for each statement: a concrete state and operands that
meet its hypotheses. -/

namespace Sys2Proof.Machine.Tests

open Sys2Proof

/-! ### Helpers -/

/-- The state a result holds; reset where it holds none. -/
def after : Result → State
  | .next s => s
  | _ => State.reset

/-- Reset with the environment's answers known. -/
def resetEnv (c : Config) (allocs : List AllocPair) (verdicts : List Verdict) : State :=
  { State.resetWith c with env := ⟨allocs, verdicts, 0⟩ }

/-- The vectors' environment. -/
def std : Config := ⟨.four, .dsEsSs⟩
def answers : AllocPair := ⟨some 0x00100000, some 0x00100080⟩
def fresh : State := resetEnv std [answers] []

/-- After vector I1, with one verdict to come. -/
def inited (c : Config) (v : Verdict) : State := after (exec .init (resetEnv c [answers] [v]))

/-- After I1 and W1. -/
def filled (c : Config) (v : Verdict) : State := after (exec (.install 1 0 0xFFFFF 0x9A#8 0xCF#8) (inited c v))

/-- Halted, as vector I2 leaves it. -/
def halted : State := after (exec .init (resetEnv std [⟨none, none⟩] []))

/-- A command presented. -/
def present (c : Command) (s : State) : State := { s with pending := [.command c] }

def statusOf (s : State) : Option (BitVec 3) := s.resp.map fun r => statusCode r.status
def resultOf (s : State) : Option (List Byte) := s.resp.map (·.result)

/-! ### Decoding: R66's records written out -/

theorem test_decode_encode :
    decode .four ⟨0b000#3, [0x1000, 0xFFF, 0x92, 0x40]⟩ = .ok (.encode 0x1000 0xFFF 0x92#8 0x40#8) := by decide
theorem test_decode_fmtreg : decode .four ⟨0b001#3, [0xFFFFFFFF]⟩ = .ok (.fmtreg 0xFFFFFFFF) := by decide
theorem test_decode_init : decode .four ⟨0b010#3, []⟩ = .ok .init := by decide
theorem test_decode_install :
    decode .four ⟨0b011#3, [-1, 0, 0xFFFFF, 0x9A, 0xCF]⟩ = .ok (.install (-1) 0 0xFFFFF 0x9A#8 0xCF#8) := by decide
theorem test_decode_readslot : decode .four ⟨0b100#3, [5]⟩ = .ok (.readslot 5) := by decide
theorem test_decode_load : decode .four ⟨0b101#3, [8, 0x10, 0x18]⟩ = .ok (.load 8#16 0x10#16 0x18#16) := by decide
theorem test_decode_reserved :
    decode .four ⟨0b110#3, []⟩ = .ok .reserved110 ∧ decode .four ⟨0b111#3, []⟩ = .ok .reserved111 := by decide

/-- U14: what is no operand is refused, by name. -/
theorem test_decode_refuses :
    decode .four ⟨0b000#3, [0, 0, 256, 0]⟩ = .error .tooWide ∧
    decode .four ⟨0b000#3, [-1, 0, 0, 0]⟩ = .error .negative ∧
    decode .four ⟨0b001#3, [0x100000000]⟩ = .error .tooWide ∧
    decode .eight ⟨0b001#3, [0x100000000]⟩ = .ok (.fmtreg 0x100000000) ∧
    decode .four ⟨0b101#3, [0, 0x10000, 0]⟩ = .error .tooWide ∧
    decode .four ⟨0b100#3, []⟩ = .error .arity := by decide

/-- The opcode table's words, bits 2:0, in a byte. -/
theorem test_table_words :
    decodeTableWord 8 0b00000010 = some .init ∧ decodeTableWord 8 0b00000101 = some (.load 0 0 0) ∧
    decodeTableWord 8 0b00000110 = some .reserved110 ∧ decodeTableWord 8 0b00000111 = some .reserved111 := by decide

/-- WellFormed's one check refuses an ill-formed term at either width. -/
theorem test_wellFormed_refuses :
    Instr.wellFormed .four (.fmtreg 0x100000000) = false ∧ Instr.wellFormed .four (.fmtreg 0xFFFFFFFF) = true ∧
    Instr.wellFormed .eight (.fmtreg 0x10000000000000000) = false := by decide

/-- R70's text: hexadecimal, a sign, both spellings of INSTALL, blanks. -/
theorem test_text_entry :
    readInstr .four
      ['e', 'n', 't', 'r', 'y', '(', '-', '1', ',', ' ', '0', ',', ' ', '0', 'x', 'F', 'f', ',', '1', '0', ',', '7', ')']
      = some (.install (-1) 0 0xFF 10#8 7#8) := by decide
theorem test_text_install :
    readLine ['I', 'N', 'S', 'T', 'A', 'L', 'L', ' ', '(', '1', ',', '2', ',', '3', ',', '4', ',', '5', ')'] =
      some ⟨0b011#3, [1, 2, 3, 4, 5]⟩ := by decide
theorem test_text_refuses :
    readLine ['i', 'n', 'i', 't'] = none ∧ readLine ['l', 'o', 'a', 'd', '(', 'x', ')'] = none ∧
    readInstr .four ['n', 'e', 'w', '_', 'r', 'e', 'g', 'i', 's', 't', 'e', 'r', '(', '-', '4', ')'] = none := by decide
theorem test_text_show :
    showCommand ⟨0b100#3, [-15]⟩ = some ['r', 'e', 'a', 'd', '_', 's', 'l', 'o', 't', '(', '-', '1', '5', ')'] := by
  decide

/-! ### The datapaths -/

/-- Vector E6: both fields truncated, gran's low nibble replaced. -/
theorem test_encode_E6 :
    entryBytesOf (encodeEntry 0x123456789 0x1ABCDE 0xF2#8 0x4F#8) =
      [0xDE#8, 0xBC#8, 0x89#8, 0x67#8, 0x45#8, 0xF2#8, 0x4A#8, 0x23#8] := by decide
/-- Vector E11: every field distinct, and its word64. -/
theorem test_encode_E11 : word64 (encodeEntry 0x00ABCDEF 0x12345 0x89#8 0x40#8) = 0x004189ABCDEF2345 := by decide
/-- Vector D2. -/
theorem test_decodeEntry_D2 :
    decodeEntry ⟨0xDE#8, 0xBC#8, 0x89#8, 0x67#8, 0x45#8, 0xF2#8, 0x4A#8, 0x23#8⟩ =
      ⟨0x23456789, 0xABCDE, 0xF2#8, 0x40#8⟩ := by decide
/-- Vectors F4 and F6. -/
theorem test_fmtreg_F4_F6 :
    fmtreg .four 0x0010F000 = [0x81#8, 0x00#8, 0x00#8, 0xF0#8, 0x10#8, 0x00#8] ∧
    fmtreg .eight 0xFFFF800000001000 =
      [0x81#8, 0x00#8, 0x00#8, 0x10#8, 0x00#8, 0x00#8, 0x00#8, 0x80#8, 0xFF#8, 0xFF#8] := by decide
/-- R86 to R88 on the source's kernel code segment: present, ring 0, code, readable; pages, 32-bit; 4 GiB. -/
theorem test_reading_W1 :
    accessPresent 0x9A#8 = true ∧ accessDpl 0x9A#8 = 0 ∧ accessIsCode 0x9A#8 = true ∧ accessReadable 0x9A#8 = true ∧
    accessIsData 0x92#8 = true ∧ accessWritable 0x92#8 = true ∧ granPages 0xCF#8 = true ∧ gran32Bit 0xCF#8 = true ∧
    granLong 0xCF#8 = false ∧ effectiveLimit ⟨0, 0xFFFFF, 0x9A#8, 0xC0#8⟩ = 0xFFFFFFFF := by decide
/-- R64 and R124: 0x18 names slot 3 at RPL 0; with limit 129 slot 15 is reachable and index 16 is not. -/
theorem test_reading_selector :
    selectorIndex 0x18#16 = 3 ∧ selectorRpl 0x18#16 = 0 ∧ selectorLdt 0x18#16 = false ∧
    indexReachable regLimit 15 = true ∧ indexReachable regLimit 16 = false := by decide

/-! ### The commands, at most two a command -/

/-- P3, Pos 2. -/
theorem test_exec_encode :
    resultOf (after (exec (.encode 0x1000 0xFFF 0x92#8 0x40#8) State.reset)) =
      some [0xFF#8, 0x0F#8, 0x00#8, 0x10#8, 0x00#8, 0x92#8, 0x40#8, 0x00#8] := by decide
/-- Vector F5: the same command at ADDR_BYTES = 8. -/
theorem test_exec_fmtreg :
    resultOf (after (exec (.fmtreg 0x100000) (State.resetWith ⟨.eight, .dsEsSs⟩))) =
      some [0x81#8, 0x00#8, 0x00#8, 0x00#8, 0x10#8, 0x00#8, 0x00#8, 0x00#8, 0x00#8, 0x00#8] := by decide
/-- Vector I1. -/
theorem test_exec_init_I1 :
    (inited std .ok).block.phase = .allocated ∧
    (inited std .ok).block.gdtrRec = some ⟨129#16, 0x00100000⟩ ∧
    (inited std .ok).mem.read 0x00100080 6 = some [0x81#8, 0x00#8, 0x00#8, 0x00#8, 0x10#8, 0x00#8] := by decide +kernel
/-- Vector I3: the register allocation fails, and no address is recorded. -/
theorem test_exec_init_I3 :
    let t := after (exec .init (resetEnv std [⟨some 0x00100000, none⟩] []))
    statusOf t = some 1#3 ∧ t.block.fault = some .eAlloc ∧ t.block.phase = .uninit ∧ t.block.tableAddr = none := by
  decide
/-- Vector S2: slot 15 is the table's last 8 bytes. -/
theorem test_exec_install_S2 :
    let t := after (exec (.install 15 0 0xFFFFF 0x92#8 0xCF#8) (inited std .ok))
    statusOf t = some 0#3 ∧ t.mem.read 0x00100078 8 =
      some [0xFF#8, 0xFF#8, 0x00#8, 0x00#8, 0x00#8, 0x92#8, 0xCF#8, 0x00#8] := by decide +kernel
/-- Vector S7: 2^64 + 1 does not wrap to slot 1. -/
theorem test_exec_install_S7 :
    let t := after (exec (.install (2 ^ 64 + 1) 0 0 0#8 0#8) (inited std .ok))
    statusOf t = some 6#3 ∧ t.block.rejects = 0x40#8 ∧ t.block.slots[1] = none := by decide
/-- Vector R2. -/
theorem test_exec_readslot_R2 :
    resultOf (after (exec (.readslot 1) (filled std .ok))) =
      some [0xFF#8, 0xFF#8, 0x00#8, 0x00#8, 0x00#8, 0x9A#8, 0xCF#8, 0x00#8] := by decide
/-- Vectors R3 and X4: an unwritten slot is 7; the index is checked before the slot. -/
theorem test_exec_readslot_R3_X4 :
    statusOf (after (exec (.readslot 7) (inited std .ok))) = some 7#3 ∧
    statusOf (after (exec (.readslot (-1)) (inited std .ok))) = some 6#3 := by decide
/-- Vector L7: the order (SS, DS, ES). -/
theorem test_exec_load_L7 :
    let t := after (exec (.load 0x08#16 0x10#16 0x18#16) (filled ⟨.four, .ssDsEs⟩ .ok))
    t.block.phase = .activated ∧ t.block.events =
      [.lgdt 0x00100080 [0x81#8, 0x00#8, 0x00#8, 0x00#8, 0x10#8, 0x00#8], .farjmp 0x08#16, .movseg .ss 0x10#16,
        .movseg .ds 0x10#16, .movseg .es 0x10#16, .movseg .gs 0x18#16] ∧
    t.block.active.map (·.gs) = some 0x18#16 ∧ t.block.active.map (·.snap) = some t.block.slots := by decide
/-- Vector L4: Fault(3) leaves four events and PHASE as it was. -/
theorem test_exec_load_L4 :
    let t := after (exec (.load 0x08#16 0x10#16 0x18#16) (filled std (.fault 3)))
    statusOf t = some 2#3 ∧ t.block.fault = some (.eCpu 3) ∧ t.block.phase = .allocated ∧
    t.block.events =
      [.lgdt 0x00100080 [0x81#8, 0x00#8, 0x00#8, 0x00#8, 0x10#8, 0x00#8], .farjmp 0x08#16, .movseg .ds 0x10#16,
        .movseg .es 0x10#16] := by decide
/-- Vectors X2 and X5. -/
theorem test_exec_reserved_X2_X5 :
    (after (exec .reserved110 State.reset)).block.rejects = 0x08#8 ∧
    statusOf (after (exec .reserved111 (inited std .ok))) = some 3#3 := by decide
/-- Vector X3: phase before index. -/
theorem test_priority_X3 : statusOf (after (exec (.install 16 0 0 0#8 0#8) State.reset)) = some 4#3 := by decide
/-- Vector X1: halted, no step. -/
theorem test_halted_X1 : exec (.encode 0 0 0#8 0#8) halted = .fault .halted := rfl
/-- A step takes the command presented, and the position moves on (R22). -/
theorem test_step :
    let t := after (step (present ⟨0b100#3, [1]⟩ (filled std .ok)))
    statusOf t = some 0#3 ∧ t.pos = 1 ∧ t.pending = [] := by decide
/-- The opcode-table word is run by the very next step after reset. -/
theorem test_withFetchWord :
    statusOf (after (step (State.reset.withFetchWord 8 0b110))) = some 3#3 := by decide

/-! ### Witnesses -/

/-- INIT leaves memory in its canonical form, whatever bytes the allocator left in the table region. -/
theorem inited_wf : (inited std .ok).mem.wf :=
  Memory.wf_write (Memory.wf_write (by decide : Memory.wf []) _ _) _ _
/-- A state after INIT and one INSTALL meets the invariant. -/
theorem filled_inv : (filled std .ok).Inv := by
  have hslots : ∀ i : Fin 16, (filled std .ok).block.slots[i].all
      (fun e => decide ((filled std .ok).mem.read (slotAddr 0x00100000 i) 8 = some (entryBytesOf e))) = true := by
    decide +kernel
  have hheld : ∀ k : Fin 128, ((filled std .ok).mem.get (0x00100000 + k.val)).isSome = true := by decide +kernel
  refine ⟨Memory.wf_write inited_wf _ _, by decide +kernel, by decide, fun h => absurd h (by decide),
    fun _ => ⟨_, _, rfl, rfl, rfl, by decide⟩, ?_, ?_, ?_, ?_, fun h => absurd h (by decide), ?_⟩
  · intro ta i e hta he
    cases hta
    have := hslots i
    rw [he] at this
    exact of_decide_eq_true this
  · intro ta x hta hx
    cases hta
    obtain ⟨k, rfl⟩ := Nat.exists_eq_add_of_le hx.1
    exact hheld ⟨k, Nat.lt_of_add_lt_add_left hx.2⟩
  · intro ra g hra hg
    cases hra; cases hg
    decide +kernel
  · intro f hf; cases hf
  · intro act h; cases h

theorem witness_EncodeAnswersTheRecord :
    State.reset.block.fault = none ∧ halted.block.fault ≠ none := by decide
theorem witness_DecodeRecoversEncodedFields : (0xFFFFFFFF : Nat) < 2 ^ 32 ∧ (0xFFFFF : Nat) < 2 ^ 20 := by decide
theorem witness_TableImageIsSlotsEndToEnd : (7 : Nat) < 8 := by decide
theorem witness_FmtregAnswersThePackedRecord :
    State.reset.block.fault = none ∧ halted.block.fault ≠ none ∧ 0xFFFFFFFF < State.reset.cfg.addrBytes.space ∧
    3 < State.reset.cfg.addrBytes.n := by decide
theorem witness_FmtregLaws :
    0xFFFFFFFF < AddrBytes.four.space ∧
    ∃ t, exec .init fresh = .next t ∧ t.resp = some ⟨.ok, []⟩ := ⟨by decide, _, rfl, rfl⟩
theorem witness_InitFollowsItsRule :
    halted.block.fault ≠ none ∧
    ((inited std .ok).block.fault = none ∧ (inited std .ok).block.phase ≠ .uninit) ∧
    (fresh.block.fault = none ∧ fresh.block.phase = .uninit ∧ allocatorReady fresh 0x00100000 0x00100080) ∧
    (∀ a : AllocPair, a = ⟨some 0x00100000, none⟩ →
      allocAnswer (resetEnv std [a] []) = some a ∧ (a.table = none ∨ a.reg = none)) := by
  refine ⟨by decide, by decide, by decide, ?_⟩
  rintro a rfl
  decide
/-- The boundary: the register region ends at the top of the address space and the table meets it from below. -/
theorem witness_AllocatorAnswersMeetTheirDuties :
    allocatorReady (resetEnv std [⟨some 0xFFFFFF7A, some 0xFFFFFFFA⟩] []) 0xFFFFFF7A 0xFFFFFFFA ∧
    allocAnswer (resetEnv std [⟨some 0xFFFFFF81, some 0⟩] []) = none ∧
    allocAnswer (resetEnv std [⟨some 0x1000, some 0x107F⟩] []) = none ∧
    State.reset.block.fault = none ∧ State.reset.block.phase = .uninit := by decide
theorem witness_InstallFollowsItsRule :
    let s := inited std .ok
    halted.block.fault ≠ none ∧ (State.reset.block.fault = none ∧ State.reset.block.phase = .uninit) ∧
    s.block.fault = none ∧ s.block.phase ≠ .uninit ∧ ¬(0 ≤ (16 : Int) ∧ (16 : Int) ≤ 15) ∧
    ¬(0 ≤ (-1 : Int) ∧ (-1 : Int) ≤ 15) ∧
    (15 : Int) = ((15 : Fin 16).val : Int) ∧ s.block.tableAddr = some 0x00100000 ∧
    0x00100000 + 8 * (15 : Fin 16).val + 8 ≤ s.cfg.addrBytes.space := by decide
theorem witness_ReadslotFollowsItsRule :
    let s := filled std .ok
    halted.block.fault ≠ none ∧ (State.reset.block.fault = none ∧ State.reset.block.phase = .uninit) ∧
    s.block.fault = none ∧ s.block.phase ≠ .uninit ∧ ¬(0 ≤ (-1 : Int) ∧ (-1 : Int) ≤ 15) ∧
    s.block.slots[(15 : Fin 16)] = none ∧
    s.block.slots[(1 : Fin 16)] = some ⟨0xFF#8, 0xFF#8, 0x00#8, 0x00#8, 0x00#8, 0x9A#8, 0xCF#8, 0x00#8⟩ := by decide
theorem witness_ReadBackLaw :
    (inited std .ok).block.phase ≠ .uninit ∧
    ∃ t, exec (.install ((1 : Fin 16).val : Int) 0 0xFFFFF 0x9A#8 0xCF#8) (inited std .ok) = .next t ∧
      (2 : Fin 16) ≠ 1 :=
  ⟨by decide, _, rfl, by decide⟩
theorem witness_InstallIsIdempotent :
    (inited std .ok).mem.wf ∧ ∃ t, exec (.install 1 0 0xFFFFF 0x9A#8 0xCF#8) (inited std .ok) = .next t :=
  ⟨inited_wf, _, rfl⟩
theorem witness_LoadFollowsItsRule :
    let seq := fun s : State =>
      loadEvents s.cfg.addrBytes 0x00100080 0x00100000 (reloadSegs s.cfg.reloadOrder) 8#16 0x10#16 0x18#16
    halted.block.fault ≠ none ∧ (State.reset.block.fault = none ∧ State.reset.block.phase = .uninit) ∧
    (filled std .ok).block.fault = none ∧ (filled std .ok).block.phase ≠ .uninit ∧
    (filled std .ok).block.regAddr = some 0x00100080 ∧
    (filled std .ok).block.gdtrRec = some ⟨129#16, 0x00100000⟩ ∧
    cpuAccepts (filled std .ok) (seq (filled std .ok)) ∧
    (filled std (.fault 5)).block.regAddr = some 0x00100080 ∧
    (filled std (.fault 5)).block.gdtrRec = some ⟨129#16, 0x00100000⟩ ∧
    verdictAnswer (filled std (.fault 5)) (seq (filled std (.fault 5))) = .fault 5 := by decide
theorem witness_LoadEmitsSixEventsInOrder :
    [Seg.ss, Seg.ds, Seg.es].Perm [Seg.ds, Seg.es, Seg.ss] ∧
    ∃ t, exec (.load 8#16 0x10#16 0x18#16) (filled ⟨.eight, .ssEsDs⟩ .ok) = .next t ∧ t.resp = some ⟨.ok, []⟩ :=
  ⟨by decide, _, rfl, rfl⟩
theorem witness_OnlyLoadRefreshesActive :
    ∃ t u, (inited std .ok).block.phase ≠ .uninit ∧
      exec (.install ((1 : Fin 16).val : Int) 0 0xFFFFF 0x9A#8 0xCF#8) (inited std .ok) = .next t ∧
      (∀ c d ts, Instr.install ((1 : Fin 16).val : Int) 0 0xFFFFF 0x9A#8 0xCF#8 ≠ .load c d ts) ∧
      exec (.load 8#16 0x10#16 0x18#16) t = .next u ∧ u.resp = some ⟨.ok, []⟩ :=
  ⟨_, _, by decide, rfl, by simp, rfl, rfl⟩
theorem witness_ReservedOpsAreRejected : State.reset.block.fault = none ∧ halted.block.fault ≠ none := by decide
/-- INIT and LOAD are the steps that change PHASE. -/
theorem witness_PhaseLifecycle :
    (∃ t, exec .init fresh = .next t ∧ t.block.phase = .allocated ∧ fresh.block.phase ≠ .allocated) ∧
    (∃ t, exec (.load 8#16 0x10#16 0x18#16) (filled std .ok) = .next t ∧ t.block.phase = .activated ∧
      (filled std .ok).block.phase ≠ .activated) ∧
    (∃ t, exec .reserved110 State.reset = .next t ∧ t.block.phase = .uninit) :=
  ⟨⟨_, rfl, rfl, by decide⟩, ⟨_, rfl, rfl, by decide⟩, ⟨_, rfl, rfl⟩⟩
theorem witness_FaultIsWrittenOnlyByRaise :
    (∃ t, exec .init (resetEnv std [⟨none, none⟩] []) = .next t ∧ t.block.fault = some .eAlloc) ∧
    halted.block.fault ≠ none := ⟨⟨_, rfl, rfl⟩, by decide⟩
theorem witness_RejectsIsSticky :
    (∃ t, exec .reserved111 State.reset = .next t ∧ t.resp = some ⟨.rejected .illegal, []⟩) ∧
    (∃ t, exec .init fresh = .next t ∧ ∀ r, t.resp ≠ some ⟨.rejected r, []⟩) :=
  ⟨⟨_, rfl, rfl⟩, ⟨_, rfl, fun r => (by cases r <;> decide)⟩⟩
theorem witness_RejectionsAndFaultsWriteOnlyTheirOwn :
    (∃ t, exec (.readslot 16) (inited std .ok) = .next t ∧ t.resp = some ⟨.rejected .index, []⟩) ∧
    (∃ t, exec .init (resetEnv std [⟨none, none⟩] []) = .next t ∧ t.resp = some ⟨.fatal .eAlloc, []⟩) ∧
    (∃ t, exec (.load 8#16 0x10#16 0x18#16) (filled std (.fault 0)) = .next t ∧
      t.resp = some ⟨.fatal (.eCpu 0), []⟩) :=
  ⟨⟨_, rfl, rfl⟩, ⟨_, rfl, rfl⟩, ⟨_, rfl, rfl⟩⟩
theorem witness_StatusCodesOfEachCommand :
    (∃ t, exec .init fresh = .next t) ∧ 7#3 ∈ possibleCodes 0b100#3 := ⟨⟨_, rfl⟩, by decide⟩
theorem witness_ChecksApplyInPriorityOrder :
    halted.block.fault ≠ none ∧ (inited std .ok).block.fault = none ∧
    firstRejection (.readslot 15) (inited std .ok) = some .unwritten ∧
    firstRejection (.readslot 16) (inited std .ok) = some .index ∧
    firstRejection (.readslot 1) (filled std .ok) = none ∧
    ∃ t, exec (.readslot 1) (filled std .ok) = .next t :=
  ⟨by decide, by decide, by decide, by decide, by decide, _, rfl⟩
theorem witness_HaltedBlockTakesOnlyReset :
    (present ⟨0b010#3, []⟩ halted).block.fault ≠ none ∧
    (present ⟨0b010#3, []⟩ halted).pending.head? = some (.command ⟨0b010#3, []⟩) ∧
    ∃ t, ({ halted with pending := [.reset] } : State).block.fault ≠ none ∧
      step { halted with pending := [.reset] } = .next t :=
  ⟨by decide, by decide, _, by decide, rfl⟩
theorem witness_EachFieldHasItsWriters :
    (∃ t, exec .init fresh = .next t ∧ t.block.tableAddr ≠ fresh.block.tableAddr ∧
      t.block.phase ≠ fresh.block.phase) ∧
    (∃ t, exec (.install 2 0 0 0#8 0#8) (filled std .ok) = .next t ∧
      t.block.slots ≠ (filled std .ok).block.slots) ∧
    (∃ t, exec (.load 8#16 0x10#16 0x18#16) (filled std .ok) = .next t ∧
      t.block.events ≠ (filled std .ok).block.events) :=
  ⟨⟨_, rfl, by decide, by decide⟩, ⟨_, rfl, by decide⟩, ⟨_, rfl, by decide⟩⟩
theorem witness_TableNeverMoves :
    (filled std .ok).block.phase ≠ .uninit ∧
    ∃ t, exec (.load 8#16 0x10#16 0x18#16) (filled std .ok) = .next t := ⟨by decide, _, rfl⟩
theorem witness_MemoryChangesOnlyWhereTheBlockWrites :
    (∃ t, exec (.install 1 0 0 0x92#8 0#8) (filled std .ok) = .next t ∧
      t.mem.get 0x0010000D ≠ (filled std .ok).mem.get 0x0010000D) ∧
    (∃ t, exec .init fresh = .next t ∧ t.mem.get 0x00100085 ≠ fresh.mem.get 0x00100085 ∧
      t.mem.get 0x0010007F ≠ fresh.mem.get 0x0010007F) :=
  ⟨⟨_, rfl, by decide +kernel⟩, ⟨_, rfl, by decide +kernel, by decide +kernel⟩⟩
theorem witness_EventsAreAppendOnly :
    ∃ t, exec (.readslot 1) (filled std .ok) = .next t ∧ ∀ c d ts, Instr.readslot 1 ≠ .load c d ts :=
  ⟨_, rfl, by simp⟩
theorem witness_ResetPutsEveryFieldAtItsValue :
    ({ halted with pending := [.reset, .reset] } : State).pending = .reset :: [.reset] := rfl
theorem witness_ResetKeepsTheEnvironment :
    ∃ t, ({ halted with pending := [.reset, .reset] } : State).pending = .reset :: [.reset] ∧
      step { halted with pending := [.reset, .reset] } = .next t := ⟨_, rfl, rfl⟩
theorem witness_TableRegionMirrorsSlot :
    (filled std .ok).Inv ∧ (filled std .ok).block.tableAddr = some 0x00100000 ∧ (7 : Nat) < 8 ∧
    (filled std .ok).block.slots[(1 : Fin 16)] ≠ none ∧ (filled std .ok).block.slots[(15 : Fin 16)] = none ∧
    ∃ t, exec .init fresh = .next t ∧ t.resp = some ⟨.ok, []⟩ ∧ t.block.tableAddr = some 0x00100000 ∧
      inTable 0x00100000 0x0010007F :=
  ⟨filled_inv, rfl, by decide, by decide, by decide, _, rfl, rfl, rfl, by decide⟩
/-- Each outcome is met: a next state that stores, the halt, and an operand that is none. -/
theorem witness_BlockNeverReadsMemory :
    (∃ t, exec (.install 15 0 0 0x92#8 0#8) (filled std .ok) = .next t) ∧ (∃ f, exec .init halted = .fault f) ∧
    ∃ r, exec (.fmtreg 0x100000000) State.reset = .refused r := ⟨⟨_, rfl⟩, ⟨_, rfl⟩, ⟨_, rfl⟩⟩
/-- INIT draws; LOAD draws twice where the CPU faults; READSLOT does not. -/
theorem witness_DrawsAreTakenInTurn :
    (∃ t, exec .init fresh = .next t ∧ fresh.block.phase = .uninit) ∧
    (∃ t, exec (.load 8#16 0x10#16 0x18#16) (filled std (.fault 1)) = .next t ∧
      (filled std (.fault 1)).block.phase ≠ .uninit ∧ t.env.draws = 3) ∧
    (∃ t, exec (.readslot 1) (filled std .ok) = .next t ∧ ¬(Instr.readslot 1 = .init) ∧
      ¬∃ c d ts, Instr.readslot 1 = .load c d ts) :=
  ⟨⟨_, rfl, rfl⟩, ⟨_, rfl, by decide, rfl⟩, ⟨_, rfl, by decide, by simp⟩⟩
/-- The bounds: the first addr too wide; slot 15 one byte past the top. -/
theorem witness_StopsTheModelAddsAreNamed :
    let s := inited std .ok
    let noTable : State := { s with block := { s.block with tableAddr := none, regAddr := none } }
    let high : State := { s with block := { s.block with tableAddr := some 0xFFFFFF81 } }
    State.reset.block.fault = none ∧ ¬0x100000000 < State.reset.cfg.addrBytes.space ∧
    noTable.block.fault = none ∧ noTable.block.phase ≠ .uninit ∧ noTable.block.tableAddr = none ∧
    noTable.block.regAddr = none ∧ high.block.fault = none ∧ high.block.phase ≠ .uninit ∧
    high.block.tableAddr = some 0xFFFFFF81 ∧ high.cfg.addrBytes.space < 0xFFFFFF81 + 8 * (15 : Fin 16).val + 8 := by
  decide
theorem witness_UninitBlockBehaviour :
    fresh.block.phase = .uninit ∧ fresh.block.fault = none ∧ 0xFFFFFFFF < fresh.cfg.addrBytes.space ∧
    allocAnswer fresh ≠ none ∧ fresh.pending = [] := by decide
theorem witness_StepRunsTheDecodedCommand :
    (present ⟨0b100#3, [1]⟩ (filled std .ok)).pending = .command ⟨0b100#3, [1]⟩ :: [] ∧
    (present ⟨0b100#3, [1]⟩ (filled std .ok)).block.fault = none ∧
    decode .four ⟨0b100#3, [1]⟩ = .ok (.readslot 1) ∧ decode .four ⟨0b100#3, []⟩ = .error .arity := by decide
theorem witness_DecodeEncodeAgree :
    Instr.wellFormed .four (.fmtreg 0xFFFFFFFF) = true ∧
    decode .four ⟨0b001#3, [0xFFFFFFFF]⟩ = .ok (.fmtreg 0xFFFFFFFF) ∧ (0b001#3).toNat < 6 := by decide
theorem witness_TextReadsBackAsTheCommand :
    (∃ line, showCommand (encode (.readslot (-1))) = some line) ∧ Instr.readslot (-1) ≠ .reserved110 ∧
    Instr.readslot (-1) ≠ .reserved111 ∧ Instr.wellFormed .four (.readslot (-1)) = true :=
  ⟨⟨_, rfl⟩, by decide, by decide, rfl⟩
theorem witness_MemWriteThenMemRead :
    (0 : Nat) < [0x81#8].length ∧ (4 + 2 ≤ 6 ∨ 6 + [0x81#8].length ≤ 4) ∧ Memory.wf [(3, 0#8), (7, 1#8)] := by decide
/-- The invariant says nothing of the queue, so it holds with an INSTALL of slot 15 presented. -/
theorem presented_inv : (present ⟨0b011#3, [15, 0, 0, 0, 0]⟩ (filled std .ok)).Inv :=
  ⟨filled_inv.memWf, filled_inv.memInSpace, filled_inv.rejectsLow, filled_inv.uninit, filled_inv.owned,
    filled_inv.mirror, filled_inv.tableHeld, filled_inv.register, filled_inv.faultPhase, filled_inv.activated, filled_inv.activeAddr⟩
theorem witness_StepKeepsTheInvariant :
    (present ⟨0b011#3, [15, 0, 0, 0, 0]⟩ (filled std .ok)).Inv ∧
    ∃ t, step (present ⟨0b011#3, [15, 0, 0, 0, 0]⟩ (filled std .ok)) = .next t ∧
      t.block.slots ≠ (filled std .ok).block.slots :=
  ⟨presented_inv, _, rfl, by decide⟩
theorem witness_StepKeepsEventsGrouped :
    (present ⟨0b101#3, [8, 16, 24]⟩ (filled std (.fault 2))).EventsGrouped ∧
    ∃ t, step (present ⟨0b101#3, [8, 16, 24]⟩ (filled std (.fault 2))) = .next t ∧ t.block.events.length = 3 :=
  ⟨⟨[], by simp, rfl⟩, _, rfl, rfl⟩
theorem witness_RunningBlockTakesEveryCommand :
    (filled std .ok).Inv ∧ (filled std .ok).block.fault = none ∧
    Instr.wellFormed (filled std .ok).cfg.addrBytes (.install 15 0 0 0#8 0#8) = true ∧
    ∀ a ∈ (filled std .ok).env.allocs, allocDuties (filled std .ok).cfg.addrBytes a = true :=
  ⟨filled_inv, by decide, by decide, by decide⟩
theorem witness_ReadslotAgreesWithMemory :
    (filled std .ok).Inv ∧ ∃ t bs, exec (.readslot 1) (filled std .ok) = .next t ∧ t.resp = some ⟨.ok, bs⟩ :=
  ⟨filled_inv, _, _, rfl, rfl⟩

end Sys2Proof.Machine.Tests
end

/-! What each command answers while FAULT = NONE, one equation per path of its rule, and from these the statements of
00_scope.md: memory is read as it was written (R9), and nothing but FAULT keeps a command from its step (R10, R153). -/

namespace Sys2Proof.Machine

/-! ### INIT -/

theorem execInit_reinit {s : State} (hf : s.block.fault = none) (hp : s.block.phase ≠ .uninit) :
    execInit s = .next (reject .reinit s) := by
  rw [execInit, whenRunning_of_running hf, if_pos hp]

theorem execInit_answered {s : State} {a : AllocPair} (hf : s.block.fault = none) (hp : s.block.phase = .uninit)
    (ha : allocAnswer s = some a) : execInit s = .next (initWith a (takeAlloc s)) := by
  rw [execInit, whenRunning_of_running hf, if_neg (not_not.mpr hp), ha]

/-- The allocator answers where no queued answer breaks a duty: the free answer of an empty queue never does. -/
theorem allocAnswer_exists {s : State} (h : ∀ a ∈ s.env.allocs, allocDuties s.cfg.addrBytes a = true) :
    ∃ a, allocAnswer s = some a := by
  unfold allocAnswer
  split
  · next a rest hq => exact ⟨a, if_pos (h a (by simp [hq]))⟩
  · exact ⟨_, rfl⟩

theorem execInit_steps {s : State} (hf : s.block.fault = none)
    (h : ∀ a ∈ s.env.allocs, allocDuties s.cfg.addrBytes a = true) : ∃ t, execInit s = .next t := by
  by_cases hp : s.block.phase = .uninit
  · obtain ⟨a, ha⟩ := allocAnswer_exists h
    exact ⟨_, execInit_answered hf hp ha⟩
  · exact ⟨_, execInit_reinit hf hp⟩

/-! ### INSTALL -/

section
variable {s : State} (index : Int) (base limit : Nat) (access gran : Byte)

theorem execInstall_notAlloc (hf : s.block.fault = none) (hp : s.block.phase = .uninit) :
    execInstall index base limit access gran s = .next (reject .notAlloc s) := by
  rw [execInstall, whenRunning_of_running hf, if_pos hp]

variable {index}

theorem execInstall_badIndex (hf : s.block.fault = none) (hp : s.block.phase ≠ .uninit)
    (hi : slotIndex index = none) : execInstall index base limit access gran s = .next (reject .index s) := by
  rw [execInstall, whenRunning_of_running hf, if_neg hp, hi]

theorem execInstall_installed {i : Fin 16} {ta : Nat} (hf : s.block.fault = none) (hp : s.block.phase ≠ .uninit)
    (hi : slotIndex index = some i) (hta : s.block.tableAddr = some ta)
    (hb : slotAddr ta i + entryBytes ≤ s.cfg.addrBytes.space) :
    execInstall index base limit access gran s =
      .next (accept [] (installAt ta i (encodeEntry base limit access gran) s)) := by
  rw [execInstall, whenRunning_of_running hf, if_neg hp, hi, hta]
  exact if_pos hb

/-- Outside UNINIT the table is there and every slot of it lies in the address space, so INSTALL has its step. -/
theorem execInstall_steps (hinv : s.Inv) (hf : s.block.fault = none) :
    ∃ t, execInstall index base limit access gran s = .next t := by
  by_cases hp : s.block.phase = .uninit
  · exact ⟨_, execInstall_notAlloc index base limit access gran hf hp⟩
  cases hi : slotIndex index with
  | none => exact ⟨_, execInstall_badIndex base limit access gran hf hp hi⟩
  | some i =>
    obtain ⟨ta, ra, hta, -, -, htable, -⟩ := hinv.owned hp
    have hb := (slotAddr_bounds ta i).2.trans htable
    exact ⟨_, execInstall_installed base limit access gran hf hp hi hta hb⟩

end

/-! ### READSLOT -/

theorem execReadslot_notAlloc {s : State} (index : Int) (hf : s.block.fault = none)
    (hp : s.block.phase = .uninit) : execReadslot index s = .next (reject .notAlloc s) := by
  rw [execReadslot, whenRunning_of_running hf, if_pos hp]

theorem execReadslot_badIndex {s : State} {index : Int} (hf : s.block.fault = none)
    (hp : s.block.phase ≠ .uninit) (hi : slotIndex index = none) :
    execReadslot index s = .next (reject .index s) := by
  rw [execReadslot, whenRunning_of_running hf, if_neg hp, hi]

theorem execReadslot_unwritten {s : State} {index : Int} {i : Fin 16} (hf : s.block.fault = none)
    (hp : s.block.phase ≠ .uninit) (hi : slotIndex index = some i) (he : s.block.slots[i] = none) :
    execReadslot index s = .next (reject .unwritten s) := by
  simp only [execReadslot, whenRunning_of_running hf, if_neg hp, hi, he]

theorem execReadslot_written {s : State} {index : Int} {i : Fin 16} {e : Entry} (hf : s.block.fault = none)
    (hp : s.block.phase ≠ .uninit) (hi : slotIndex index = some i) (he : s.block.slots[i] = some e) :
    execReadslot index s = .next (accept (entryBytesOf e) s) := by
  simp only [execReadslot, whenRunning_of_running hf, if_neg hp, hi, he]

theorem execReadslot_steps {s : State} (index : Int) (hf : s.block.fault = none) :
    ∃ t, execReadslot index s = .next t := by
  by_cases hp : s.block.phase = .uninit
  · exact ⟨_, execReadslot_notAlloc index hf hp⟩
  cases hi : slotIndex index with
  | none => exact ⟨_, execReadslot_badIndex hf hp hi⟩
  | some i =>
    cases he : s.block.slots[i] with
    | none => exact ⟨_, execReadslot_unwritten hf hp hi he⟩
    | some e => exact ⟨_, execReadslot_written hf hp hi he⟩

/-! ### LOAD -/

section
variable {s : State} (codeSel dataSel tlsSel : Selector)

theorem execLoad_notAlloc (hf : s.block.fault = none) (hp : s.block.phase = .uninit) :
    execLoad codeSel dataSel tlsSel s = .next (reject .notAlloc s) := by
  rw [execLoad, whenRunning_of_running hf, if_pos hp]

theorem execLoad_issued {ra : Nat} {g : GdtrRec} (hf : s.block.fault = none) (hp : s.block.phase ≠ .uninit)
    (hra : s.block.regAddr = some ra) (hg : s.block.gdtrRec = some g) :
    execLoad codeSel dataSel tlsSel s = .next (loadWith ra g codeSel dataSel tlsSel s) := by
  rw [execLoad, whenRunning_of_running hf, if_neg hp, hra, hg]

/-- Outside UNINIT the register record LOAD hands to the CPU is there, and either verdict is a step. -/
theorem execLoad_steps (hinv : s.Inv) (hf : s.block.fault = none) :
    ∃ t, execLoad codeSel dataSel tlsSel s = .next t := by
  by_cases hp : s.block.phase = .uninit
  · exact ⟨_, execLoad_notAlloc codeSel dataSel tlsSel hf hp⟩
  · obtain ⟨ta, ra, -, hra, hg, -⟩ := hinv.owned hp
    exact ⟨_, execLoad_issued codeSel dataSel tlsSel hf hp hra hg⟩

end

/-! ### FMTREG -/

theorem execFmtreg_fits {s : State} {addr : Nat} (hf : s.block.fault = none) (ha : addr < s.cfg.addrBytes.space) :
    execFmtreg addr s = .next (accept (fmtreg s.cfg.addrBytes addr) s) := by
  rw [execFmtreg, whenRunning_of_running hf, if_pos ha]

/-! ### The statements -/

/-- Settles O39, from the laws of system memory: byte `k` of what is read back is the byte at its address. -/
theorem memWriteThenMemRead : Obligations.MemWriteThenMemRead := fun m a bs =>
  ⟨Memory.read_write_same m a bs, fun _ hk => Memory.get_of_read (Memory.read_write_same m a bs) hk,
    fun _ _ => Memory.read_write_apart, fun hm => Memory.wf_write hm a bs⟩

/-- Settles O43, command by command: the invariant gives INSTALL and LOAD the table and the register record, the
duties of R48 give INIT its answer, and the operand's width lets FMTREG through. -/
theorem runningBlockTakesEveryCommand : Obligations.RunningBlockTakesEveryCommand := by
  intro s i hinv hf hw hallocs
  cases i with
  | encode base limit access gran => exact ⟨_, whenRunning_of_running hf⟩
  | fmtreg addr => exact ⟨_, execFmtreg_fits hf (of_decide_eq_true hw)⟩
  | init => exact execInit_steps hf hallocs
  | install index base limit access gran => exact execInstall_steps base limit access gran hinv hf
  | readslot index => exact execReadslot_steps index hf
  | load codeSel dataSel tlsSel => exact execLoad_steps codeSel dataSel tlsSel hinv hf
  | reserved110 => exact ⟨_, whenRunning_of_running hf⟩
  | reserved111 => exact ⟨_, whenRunning_of_running hf⟩

end Sys2Proof.Machine

/-! The state of 10_state.md. What each kind of update does to the invariant, one lemma per effect a command can have,
and from these O41; then who writes which field, one lemma per field over the effects, and from these the statements
about PHASE, FAULT, REJECTS, EVENTS and the access matrix; then reset and what a step takes from the queue. -/

namespace Sys2Proof.Machine

/-! ### Memory under a write -/

/-- A write that ends inside the address space lists no address outside it. -/
theorem Memory.write_inSpace {m : Memory} {a n : Nat} {bs : List Byte} (hm : ∀ c ∈ m, c.1 < n)
    (hb : a + bs.length ≤ n) : ∀ c ∈ m.write a bs, c.1 < n := by
  intro c hc
  obtain ⟨-, hlt⟩ | hc := Memory.mem_write hc
  · exact hlt.trans_le hb
  · exact hm c hc

/-- After a write the bytes that hold a value are those that held one and those that were stored. -/
theorem Memory.isSome_get_write {m : Memory} {a x : Nat} {bs : List Byte} :
    ((m.write a bs).get x).isSome ↔ (a ≤ x ∧ x < a + bs.length) ∨ (m.get x).isSome := by
  rw [Memory.get_write]
  split_ifs with h
  · rw [List.getElem?_eq_getElem (by omega)]
    exact iff_of_true rfl (.inl h)
  · simp only [h, false_or]

/-- Two slots of the table share no byte (R63). -/
theorem slotAddr_apart {i j : Fin 16} (ta : Nat) (h : i ≠ j) :
    slotAddr ta i + 8 ≤ slotAddr ta j ∨ slotAddr ta j + 8 ≤ slotAddr ta i := by
  have hne : i.val ≠ j.val := fun he => h (Fin.ext he)
  simp only [slotAddr]
  omega

theorem replicate_none_getElem (i : Fin 16) : (Vector.replicate 16 none : Slots)[i] = none := by simp

/-! ### The invariant under each effect -/

/-- The invariant speaks of the parameters, the block and memory only. -/
theorem State.Inv.of_eq {s t : State} (hs : s.Inv) (hc : t.cfg = s.cfg) (hb : t.block = s.block)
    (hm : t.mem = s.mem) : t.Inv := by
  obtain ⟨cfg, block, mem⟩ := s
  obtain ⟨cfg', block', mem'⟩ := t
  cases hc; cases hb; cases hm
  exact { hs with }

/-- Over canonical memory inside the address space, a block at its reset values meets the invariant (R34). -/
theorem State.inv_of_block_reset {s : State} (hb : s.block = Block.reset) (hwf : s.mem.wf)
    (hspace : ∀ c ∈ s.mem, c.1 < s.cfg.addrBytes.space) : s.Inv where
  memWf := hwf
  memInSpace := hspace
  rejectsLow := by rw [hb]; rfl
  uninit _ := by rw [hb]; exact ⟨rfl, rfl, rfl, rfl, rfl, rfl⟩
  owned h := by rw [hb] at h; exact absurd rfl h
  mirror _ _ _ h := by rw [hb] at h; cases h
  tableHeld _ _ h := by rw [hb] at h; cases h
  register _ _ h := by rw [hb] at h; cases h
  faultPhase _ h := by rw [hb] at h; cases h
  activated h := by rw [hb] at h; cases h
  activeAddr _ h := by rw [hb] at h; cases h

theorem State.resetWith_inv (c : Config) : (State.resetWith c).Inv :=
  State.inv_of_block_reset rfl List.Pairwise.nil fun _ h => nomatch h

/-- Reset leaves memory alone, and memory is all the invariant asks of what came before. -/
theorem State.Inv.powerReset {s : State} (hs : s.Inv) : (powerReset (dropInput s)).Inv :=
  State.inv_of_block_reset rfl hs.memWf hs.memInSpace

/-- A rejection's code is at least 3, so the bit it sets is none of bits 0 to 2 (R30). -/
theorem setReject_low (r : Rejection) {b : BitVec 8} (h : b &&& 0b111#8 = 0) : setReject r b &&& 0b111#8 = 0 := by
  have hbit : (1#8 <<< rejectionCode r) &&& 0b111#8 = 0 := by cases r <;> rfl
  rw [setReject, BitVec.and_or_distrib_right, h, hbit]
  rfl

theorem State.Inv.reject {s : State} (hs : s.Inv) (r : Rejection) : (reject r s).Inv :=
  { hs with rejectsLow := setReject_low r hs.rejectsLow }

/-- E_ALLOC is raised in UNINIT and leaves PHASE there (R100). -/
theorem State.Inv.raise_eAlloc {s : State} (hs : s.Inv) (hp : s.block.phase = .uninit) : (raise .eAlloc s).Inv :=
  { hs with
    faultPhase := by
      intro f hf
      cases hf
      exact iff_of_true rfl hp
    activated := fun _ hf => nomatch hf }

/-- INIT establishes every clause anew: the regions are those the allocator answered, the table region holds what the
allocator left and the register region the image of GDTR_REC (R100). -/
theorem State.Inv.initWith {s : State} {ta ra : Nat} (hs : s.Inv) (hf : s.block.fault = none)
    (hp : s.block.phase = .uninit) (hr : regionsApart s.cfg.addrBytes ta ra) :
    (initWith ⟨some ta, some ra⟩ s).Inv := by
  have ⟨htable, hreg, _⟩ := hr
  obtain ⟨-, -, -, hactive, -⟩ := hs.uninit hp
  rw [initWith_some]
  exact
    { memWf := Memory.wf_write (Memory.wf_write hs.memWf _ _) _ _
      memInSpace := Memory.write_inSpace
        (Memory.write_inSpace hs.memInSpace (by rw [leftBytes_length]; exact htable))
        (by rw [fmtreg_length]; exact hreg)
      rejectsLow := hs.rejectsLow
      uninit := fun h => nomatch h
      owned := fun _ => ⟨ta, ra, rfl, rfl, rfl, hr⟩
      mirror := by
        intro ta' i e _ he
        cases (replicate_none_getElem i).symm.trans he
      tableHeld := by
        intro ta' x hta hx
        cases hta
        refine Memory.isSome_get_write.mpr (.inr (Memory.isSome_get_write.mpr (.inl ?_)))
        rw [leftBytes_length]
        exact hx
      register := by
        intro ra' g hra hg
        cases hra; cases hg
        have hread := Memory.read_write_same (receiveTable ta s).mem ra (fmtreg s.cfg.addrBytes ta)
        rwa [fmtreg_length] at hread
      faultPhase := fun f h => nomatch hf.symm.trans h
      activated := fun h => nomatch h
      activeAddr := fun act h => nomatch hactive.symm.trans h }

/-- INSTALL keeps the mirror: the slot it writes has its bytes in memory, every other slot's bytes and the register
record lie apart from them (R42, R43, R101). -/
theorem State.Inv.installAt {s : State} {ta : Nat} (hs : s.Inv) (k : Fin 16) (e : Entry)
    (hp : s.block.phase ≠ .uninit) (hta : s.block.tableAddr = some ta) : (installAt ta k e s).Inv := by
  obtain ⟨ta', ra, hta', hra, hg, htable, hreg, hapart⟩ := hs.owned hp
  cases hta.symm.trans hta'
  have hslot := slotAddr_bounds ta k
  exact
    { hs with
      memWf := Memory.wf_write hs.memWf _ _
      memInSpace := Memory.write_inSpace hs.memInSpace (hslot.2.trans htable)
      uninit := fun h => absurd h hp
      mirror := by
        intro ta' i e' hta' he
        cases hta.symm.trans hta'
        by_cases hik : i = k
        · subst hik
          have hee : e = e' := by simpa using he
          subst hee
          exact Memory.read_write_same _ _ _
        · have hold : s.block.slots[i] = some e' := by
            simpa [Vector.getElem_set, Fin.val_ne_of_ne (Ne.symm hik)] using he
          exact (Memory.read_write_apart (slotAddr_apart ta hik)).trans (hs.mirror ta i e' hta hold)
      tableHeld := fun ta' x hta' hx => Memory.isSome_get_write.mpr (.inr (hs.tableHeld ta' x hta' hx))
      register := by
        intro ra' g hra' hg'
        cases hra.symm.trans hra'
        refine (Memory.read_write_apart ?_).trans (hs.register ra g hra hg')
        rw [entryBytesOf_length, installAt_cfg]
        omega }

/-- LOAD under OK: ACTIVE takes the limit and the address of GDTR_REC, and the three data registers one selector. -/
theorem State.Inv.loadAccepted {s : State} {g : GdtrRec} (hs : s.Inv) (seq : List Event) (c d ts : Selector)
    (hf : s.block.fault = none) (hp : s.block.phase ≠ .uninit) (hg : s.block.gdtrRec = some g) :
    (loadAccepted seq (activation g c d ts s.block.slots) s).Inv := by
  obtain ⟨ta, ra, hta, hra, hg', hr⟩ := hs.owned hp
  cases hg.symm.trans hg'
  exact
    { hs with
      uninit := fun h => nomatch h
      owned := fun _ => ⟨ta, ra, hta, hra, hg, hr⟩
      faultPhase := fun f h => nomatch hf.symm.trans h
      activated := fun _ _ => ⟨_, rfl, hg, rfl, rfl⟩
      activeAddr := by
        intro act h
        cases h
        exact (Nat.lt_add_of_pos_right (by decide : 0 < tableBytes)).trans_le hr.1 }

/-- LOAD under Fault(k): PHASE stays outside UNINIT, and the free value of ACTIVE has an ADDR in the address space. -/
theorem State.Inv.loadFaulted {s : State} (hs : s.Inv) (seq : List Event) (k : Fin 6)
    (hp : s.block.phase ≠ .uninit) : (loadFaulted seq k s).Inv :=
  { hs with
    uninit := fun h => absurd h hp
    faultPhase := by
      intro f h
      cases h
      exact iff_of_false (fun h => nomatch h) hp
    activated := fun _ h => nomatch h
    activeAddr := fun _ h => freeActive_addr (s := s) h }

/-- Every effect a command can have keeps the invariant. -/
theorem Effect.inv {i : Instr} {s t : State} (he : Effect i s t) (hf : s.block.fault = none) (hs : s.Inv) :
    t.Inv := by
  cases he with
  | rejected r h => rw [h]; exact hs.reject r
  | answered bs h => rw [h]; exact hs.of_eq rfl rfl rfl
  | allocFailed hi hp h =>
    have htaken : (takeAlloc s).Inv := hs.of_eq rfl rfl rfl
    rw [h]; exact htaken.raise_eAlloc hp
  | allocated hi hp ta ra ha h =>
    have htaken : (takeAlloc s).Inv := hs.of_eq rfl rfl rfl
    rw [h]; exact htaken.initWith hf hp (allocDuties_some (allocAnswer_duties (s := s) ha))
  | installed k b l a g ta hi hp hta hb h =>
    rw [h]; exact (hs.installAt k _ hp hta).of_eq rfl rfl rfl
  | loaded c d ts ra g hi hp hra hg hv h =>
    have htaken : (takeVerdict s).Inv := hs.of_eq rfl rfl rfl
    rw [h]; exact htaken.loadAccepted _ c d ts hf hp hg
  | faulted c d ts ra g k hi hp hra hg hv h =>
    have htaken : (takeVerdict s).Inv := hs.of_eq rfl rfl rfl
    rw [h]; exact htaken.loadFaulted _ k hp

/-- Settles O41: a step waits, resets, or runs one command, whose effect keeps every clause. -/
theorem stepKeepsTheInvariant : Obligations.StepKeepsTheInvariant := by
  intro s t hs hstep
  obtain ⟨-, -, rfl⟩ | ⟨-, rfl⟩ | ⟨c, i, -, -, -, hexec⟩ := step_next hstep
  · exact hs
  · exact hs.powerReset
  · obtain ⟨hf, he⟩ := exec_next hexec
    exact he.inv hf (hs.of_eq rfl rfl rfl)

/-! ### The writers of each field, over the effects of a command (R32) -/

section
variable {i : Instr} {s t : State}

/-- PHASE (R24): kept, or UNINIT to ALLOCATED by INIT, or to ACTIVATED by LOAD. -/
theorem Effect.phase_writers (he : Effect i s t) :
    t.block.phase = s.block.phase ∨
      (i = .init ∧ s.block.phase = .uninit ∧ t.block.phase = .allocated) ∨
      ((∃ c d ts, i = .load c d ts) ∧ s.block.phase ≠ .uninit ∧ t.block.phase = .activated) := by
  cases he with
  | allocated hi hp ta ra ha h => subst h; exact .inr (.inl ⟨hi, hp, rfl⟩)
  | loaded c d ts ra g hi hp hra hg hv h => subst h; exact .inr (.inr ⟨⟨c, d, ts, hi⟩, hp, rfl⟩)
  | _ => subst_vars; exact .inl rfl

/-- FAULT (R25): kept, or E_ALLOC by INIT, or E_CPU by LOAD. -/
theorem Effect.fault_writers (he : Effect i s t) :
    t.block.fault = s.block.fault ∨ (i = .init ∧ t.block.fault = some .eAlloc) ∨
      (∃ c d ts k, i = .load c d ts ∧ t.block.fault = some (.eCpu k)) := by
  cases he with
  | allocFailed hi hp h => subst h; exact .inr (.inl ⟨hi, rfl⟩)
  | faulted c d ts ra g k hi hp hra hg hv h => subst h; exact .inr (.inr ⟨c, d, ts, k, hi, rfl⟩)
  | _ => subst_vars; exact .inl rfl

/-- REJECTS (R30): only a rejection writes it, and its code is in the response. -/
theorem Effect.rejects_writers (he : Effect i s t) :
    (∃ r, t.resp = some ⟨.rejected r, []⟩ ∧ t.block.rejects = setReject r s.block.rejects) ∨
      ((∀ r, t.resp ≠ some ⟨.rejected r, []⟩) ∧ t.block.rejects = s.block.rejects) := by
  cases he with
  | rejected r h => subst h; exact .inl ⟨r, rfl, rfl⟩
  | _ => subst_vars; exact .inr ⟨fun r h => (nomatch h), rfl⟩

/-- SLOT (R26): kept but by INIT and INSTALL. -/
theorem Effect.slots_writers (he : Effect i s t) :
    t.block.slots = s.block.slots ∨ i = .init ∨ ∃ x b l a g, i = .install x b l a g := by
  cases he with
  | allocated hi hp ta ra ha h => exact .inr (.inl hi)
  | installed k b l a g ta hi hp hta hb h => exact .inr (.inr ⟨_, b, l, a, g, hi⟩)
  | _ => subst_vars; exact .inl rfl

/-- TABLE_ADDR, REG_ADDR and GDTR_REC (R27 to R29): kept but by INIT, from UNINIT. -/
theorem Effect.registers_writers (he : Effect i s t) :
    (t.block.tableAddr = s.block.tableAddr ∧ t.block.regAddr = s.block.regAddr ∧
      t.block.gdtrRec = s.block.gdtrRec) ∨ (i = .init ∧ s.block.phase = .uninit) := by
  cases he with
  | allocated hi hp ta ra ha h => exact .inr ⟨hi, hp⟩
  | _ => subst_vars; exact .inl ⟨rfl, rfl, rfl⟩

/-- ACTIVE (R31): kept but by LOAD. -/
theorem Effect.active_writers (he : Effect i s t) :
    t.block.active = s.block.active ∨ ∃ c d ts, i = .load c d ts := by
  cases he with
  | loaded c d ts ra g hi hp hra hg hv h => exact .inr ⟨c, d, ts, hi⟩
  | faulted c d ts ra g k hi hp hra hg hv h => exact .inr ⟨c, d, ts, hi⟩
  | _ => subst_vars; exact .inl rfl

/-- EVENTS (R33): kept, or LOAD appends. -/
theorem Effect.events_writers (he : Effect i s t) :
    t.block.events = s.block.events ∨
      ((∃ c d ts, i = .load c d ts) ∧ ∃ es, t.block.events = s.block.events ++ es) := by
  cases he with
  | loaded c d ts ra g hi hp hra hg hv h => subst h; exact .inr ⟨⟨c, d, ts, hi⟩, _, rfl⟩
  | faulted c d ts ra g k hi hp hra hg hv h => subst h; exact .inr ⟨⟨c, d, ts, hi⟩, _, rfl⟩
  | _ => subst_vars; exact .inl rfl

/-- No command writes the parameters, the queue or the position. -/
theorem Effect.interface_frame (he : Effect i s t) : t.cfg = s.cfg ∧ t.pending = s.pending ∧ t.pos = s.pos := by
  cases he <;> subst_vars <;> exact ⟨rfl, rfl, rfl⟩

/-- A rejection sets the bit of its code and no other (R30). -/
theorem setReject_getLsbD (r : Rejection) (b : BitVec 8) (k : Nat) :
    (setReject r b).getLsbD k = (b.getLsbD k || decide (k = rejectionCode r)) := by
  have hbit : (1#8 <<< rejectionCode r) = BitVec.twoPow 8 (rejectionCode r) := by cases r <;> rfl
  have hcode : rejectionCode r < 8 := by cases r <;> decide
  rw [setReject, hbit, BitVec.getLsbD_or, BitVec.getLsbD_twoPow]
  simp [hcode, eq_comm]

end

/-! ### The statements about the fields -/

/-- Settles O18: of the two commands that write PHASE, INIT found UNINIT and LOAD did not. -/
theorem phaseLifecycle : Obligations.PhaseLifecycle := by
  refine ⟨⟨rfl, rfl, rfl, fun p => by cases p <;> decide⟩, rfl, fun i s t h => ?_⟩
  obtain ⟨-, he⟩ := exec_next h
  obtain hkept | ⟨hi, hp, ht⟩ | ⟨hi, hp, ht⟩ := he.phase_writers
  · rw [hkept]
    exact ⟨id, fun h hne => absurd h hne, fun h hne => absurd h hne⟩
  · rw [ht]
    exact ⟨fun h => (nomatch h), fun _ _ => ⟨hi, hp⟩, fun h => (nomatch h)⟩
  · rw [ht]
    refine ⟨fun h => (nomatch h), fun h => (nomatch h), fun _ hne => ⟨hi, ?_⟩⟩
    cases hs : s.block.phase with
    | uninit => exact absurd hs hp
    | allocated => rfl
    | activated => exact absurd hs hne

/-- With FAULT set every command is the fault `halted` (R153). -/
theorem exec_of_fault {i : Instr} {s : State} (hf : s.block.fault ≠ none) : exec i s = .fault .halted := by
  cases i <;> exact whenRunning_of_fault hf

/-- Settles O19: every command checks FAULT first, and only the two raises write it. -/
theorem faultIsWrittenOnlyByRaise : Obligations.FaultIsWrittenOnlyByRaise := by
  refine ⟨⟨rfl, rfl, fun _ => rfl⟩, rfl, fun i s t h => ?_, fun i s => exec_of_fault⟩
  obtain ⟨hf, he⟩ := exec_next h
  exact ⟨hf, he.fault_writers.imp_left fun hkept => hkept.trans hf⟩

/-- Settles O20: a rejection sets the bit of the code it answers, and nothing else writes REJECTS. -/
theorem rejectsIsSticky : Obligations.RejectsIsSticky := by
  refine ⟨rfl, fun i s t h => ?_, fun r => by cases r <;> decide⟩
  obtain ⟨-, he⟩ := exec_next h
  obtain ⟨r, hresp, hset⟩ | ⟨hresp, hkept⟩ := he.rejects_writers
  · refine ⟨fun r' hr' k => ?_, fun hno => absurd hresp (hno r)⟩
    cases hresp.symm.trans hr'
    rw [hset, setReject_getLsbD]
  · exact ⟨fun r hr => absurd hr (hresp r), fun _ => hkept⟩

/-- Settles O25, column by column of the matrix. -/
theorem eachFieldHasItsWriters : Obligations.EachFieldHasItsWriters := by
  intro i s t h
  obtain ⟨-, he⟩ := exec_next h
  refine ⟨he.slots_writers.resolve_left, fun hne => ?_, fun hne => ?_, fun hne => ?_, he.interface_frame⟩
  · obtain ⟨hta, hra, hg⟩ | ⟨hi, -⟩ := he.registers_writers
    · simp [hta, hra, hg] at hne
    · exact hi
  · obtain hne | hne := hne
    · exact he.active_writers.resolve_left hne
    · exact (he.events_writers.resolve_left hne).1
  · obtain hne | hne := hne
    · exact (he.phase_writers.resolve_left hne).imp (·.1) (·.1)
    · exact (he.fault_writers.resolve_left hne).imp (·.1) fun ⟨c, d, ts, _, hi, _⟩ => ⟨c, d, ts, hi⟩

/-- Settles O26: INIT alone writes the three, and only from UNINIT. -/
theorem tableNeverMoves : Obligations.TableNeverMoves := by
  intro i s t hp h
  obtain ⟨-, he⟩ := exec_next h
  exact he.registers_writers.resolve_right fun ⟨_, huninit⟩ => hp huninit

/-- Settles O28: LOAD alone writes EVENTS, and it appends. -/
theorem eventsAreAppendOnly : Obligations.EventsAreAppendOnly := by
  refine ⟨rfl, fun i s t h => ?_⟩
  obtain ⟨-, he⟩ := exec_next h
  obtain hkept | ⟨⟨c, d, ts, hi⟩, es, happ⟩ := he.events_writers
  · exact ⟨[], by rw [hkept, List.append_nil], fun _ => rfl⟩
  · exact ⟨es, happ, fun hno => absurd hi (hno c d ts)⟩

/-! ### Reset, and what a step takes from the queue -/

section
variable {s : State} {rest : List Input}

/-- Reset is taken whatever FAULT holds (R153, R170). -/
theorem step_reset (hq : s.pending = .reset :: rest) : step s = .next (powerReset (dropInput s)) := by
  simp only [step, fetch, hq]

variable {c : Command} (hq : s.pending = .command c :: rest) (hf : s.block.fault = none)
include hq hf

theorem step_command {i : Instr} (hd : decode s.cfg.addrBytes c = .ok i) : step s = exec i (advance s) := by
  simp only [step, fetch, hq, hf, hd, if_true]

theorem step_illTyped {e : OperandError} (hd : decode s.cfg.addrBytes c = .error e) :
    step s = .refused (.illTyped e) := by
  simp only [step, fetch, hq, hf, hd, if_true]

end

/-- Settles O40: with no table nothing is mirrored, and no LOAD has issued an event. -/
theorem resetMeetsTheInvariant : Obligations.ResetMeetsTheInvariant :=
  ⟨fun c => ⟨State.resetWith_inv c, [], fun _ h => (nomatch h), rfl⟩, State.resetWith_inv _⟩

/-- Settles O29: both blocks are `Block.reset`. -/
theorem resetPutsEveryFieldAtItsValue : Obligations.ResetPutsEveryFieldAtItsValue := by
  unfold Obligations.ResetPutsEveryFieldAtItsValue
  intro isReset
  have hreset : isReset Block.reset := ⟨rfl, rfl, rfl, replicate_none_getElem, rfl, rfl, rfl, rfl, rfl⟩
  exact ⟨hreset, fun s rest hq => ⟨_, step_reset hq, hreset, rfl⟩⟩

/-- Settles O30: a reset step is `powerReset`, which writes the block, the position and the response. -/
theorem resetKeepsTheEnvironment : Obligations.ResetKeepsTheEnvironment := by
  refine ⟨fun s t rest hq hstep => ?_, fun c => ⟨rfl, rfl, rfl, rfl⟩⟩
  cases (step_reset hq).symm.trans hstep
  exact ⟨rfl, rfl, by simp [hq], rfl, rfl⟩

/-- Settles O32: with FAULT = NONE a step turns on what the record at the head decodes to. -/
theorem stepRunsTheDecodedCommand : Obligations.StepRunsTheDecodedCommand := by
  intro s c rest hq hf
  refine ⟨fun i hd => ?_, fun e hd => step_illTyped hq hf hd⟩
  rw [step_command hq hf hd, advance, hq, List.tail_cons]

end Sys2Proof.Machine

/-! System memory of 20_memory.md. What the allocator and INIT, INSTALL and READSLOT do to it, one lemma per operation;
which bytes a command changes, over its effects; and that no command looks at memory, one lemma per command that has
more than one path. From these the statements about memory. -/

namespace Sys2Proof.Machine

/-! ### The allocator's answers (R48) -/

theorem allocDuties_table {w : AddrBytes} {a : AllocPair} {ta : Nat} (h : allocDuties w a = true)
    (hta : a.table = some ta) : ta + tableBytes ≤ w.space := by
  obtain ⟨t, r⟩ := a
  cases hta
  cases r with
  | none => exact of_decide_eq_true h
  | some ra => exact (allocDuties_some h).1

theorem allocDuties_reg {w : AddrBytes} {a : AllocPair} {ra : Nat} (h : allocDuties w a = true)
    (hra : a.reg = some ra) : ra + w.regBytes ≤ w.space := by
  obtain ⟨t, r⟩ := a
  cases hra
  cases t with
  | none => exact of_decide_eq_true h
  | some ta => exact (allocDuties_some h).2.1

/-- Regions apart have no address in common. -/
theorem not_inTable_and_inRegister {w : AddrBytes} {ta ra : Nat} (h : regionsApart w ta ra) (x : Nat) :
    ¬(inTable ta x ∧ inRegister w ra x) := by
  obtain ⟨-, -, hapart⟩ := h
  rintro ⟨⟨hta, hta'⟩, hra, hra'⟩
  omega

/-- Where the environment has no move INIT is refused, the model's choice (log entry 5). -/
theorem execInit_refused {s : State} (hf : s.block.fault = none) (hp : s.block.phase = .uninit)
    (ha : allocAnswer s = none) : execInit s = .refused .allocatorDuty := by
  rw [execInit, whenRunning_of_running hf, if_neg (not_not.mpr hp), ha]

/-- Settles O9: every answer meets `allocDuties`, queued or free. -/
theorem allocatorAnswersMeetTheirDuties : Obligations.AllocatorAnswersMeetTheirDuties := fun _ =>
  ⟨fun _ _ ha hta => allocDuties_table (allocAnswer_duties ha) hta,
    fun _ _ ha hra => allocDuties_reg (allocAnswer_duties ha) hra,
    fun _ _ ha => not_inTable_and_inRegister (allocDuties_some (allocAnswer_duties ha)),
    execInit_refused⟩

/-! ### The same INSTALL twice (R46) -/

theorem setReject_setReject (r : Rejection) (b : BitVec 8) : setReject r (setReject r b) = setReject r b := by
  rw [setReject, setReject, BitVec.or_assoc, BitVec.or_self]

theorem reject_reject (r : Rejection) (s : State) : reject r (reject r s) = reject r s := by
  simp only [reject, respond, setReject_setReject]

/-- In canonical memory storing the same bytes twice is storing them once. -/
theorem Memory.write_write_same {m : Memory} (h : m.wf) (a : Nat) (bs : List Byte) :
    (m.write a bs).write a bs = m.write a bs := by
  have hwf := Memory.wf_write h a bs
  refine Memory.ext_get (Memory.wf_write hwf a bs) hwf fun x => ?_
  simp only [Memory.get_write]
  split_ifs <;> rfl

theorem install_install (ta : Nat) (i : Fin 16) (e : Entry) {s : State} (h : s.mem.wf) :
    accept [] (installAt ta i e (accept [] (installAt ta i e s))) = accept [] (installAt ta i e s) := by
  have hslots : (s.block.slots.set i (some e)).set i (some e) = s.block.slots.set i (some e) := by simp
  have hmem := Memory.write_write_same h (slotAddr ta i) (entryBytesOf e)
  simp only [accept, respond, installAt, hslots, hmem]

/-- Settles O13: whichever path the first INSTALL took leaves FAULT, PHASE and TABLE_ADDR as they were, so the second
takes it too, and each path's effect is idempotent. -/
theorem installIsIdempotent : Obligations.InstallIsIdempotent := by
  intro s t index base limit access gran hwf h
  obtain ⟨hf, ⟨hp, rfl⟩ | ⟨hp, hi, rfl⟩ | ⟨hp, i, ta, hi, hta, hb, rfl⟩⟩ := execInstall_next h
  · have hagain := execInstall_notAlloc (s := reject .notAlloc s) index base limit access gran hf hp
    rwa [reject_reject] at hagain
  · have hagain := execInstall_badIndex (s := reject .index s) base limit access gran hf hp (slotIndex_eq_none.mpr hi)
    rwa [reject_reject] at hagain
  · have hagain := execInstall_installed (s := accept [] (installAt ta i (encodeEntry base limit access gran) s))
      base limit access gran hf hp hi hta hb
    rwa [install_install ta i _ hwf] at hagain

/-! ### The table region and SLOT (R42) -/

/-- A READSLOT that answers OK found its slot written, and answers the slot's bytes. -/
theorem execReadslot_ok {index : Int} {s t : State} {bs : List Byte} (h : execReadslot index s = .next t)
    (hr : t.resp = some ⟨.ok, bs⟩) :
    s.block.phase ≠ .uninit ∧ ∃ (i : Fin 16) (e : Entry), index = (i.val : Int) ∧ s.block.slots[i] = some e ∧
      bs = entryBytesOf e := by
  obtain ⟨-, ⟨-, rfl⟩ | ⟨-, -, rfl⟩ | ⟨-, i, -, -, rfl⟩ | ⟨hp, i, e, hi, he, rfl⟩⟩ := execReadslot_next h
  · cases hr
  · cases hr
  · cases hr
  · cases hr; exact ⟨hp, i, e, slotIndex_eq_some.mp hi, he, rfl⟩

/-- Settles O44: the slot READSLOT answers from is one the table region mirrors. -/
theorem readslotAgreesWithMemory : Obligations.ReadslotAgreesWithMemory := by
  intro s t index bs hinv h hr
  obtain ⟨hp, i, e, rfl, he, rfl⟩ := execReadslot_ok h hr
  obtain ⟨ta, -, hta, -⟩ := hinv.owned hp
  exact ⟨ta, hta, hinv.mirror ta i e hta he⟩

/-- Byte `k` of slot `i` is a byte of the table region (R63). -/
theorem inTable_slotAddr_add (ta : Nat) (i : Fin 16) {k : Nat} (hk : k < 8) : inTable ta (slotAddr ta i + k) := by
  obtain ⟨hlow, hhigh⟩ := slotAddr_bounds ta i
  exact ⟨by omega, by omega⟩

/-- An INIT that answers OK had both answers of the allocator, and set up the two regions. -/
theorem execInit_ok {s t : State} {bs : List Byte} (h : execInit s = .next t) (hr : t.resp = some ⟨.ok, bs⟩) :
    ∃ ta ra, allocatorReady s ta ra ∧ t = initWith ⟨some ta, some ra⟩ (takeAlloc s) := by
  obtain ⟨-, ⟨-, rfl⟩ | ⟨-, a, ha, rfl⟩⟩ := execInit_next h
  · cases hr
  · obtain he | ⟨ta, ra, rfl⟩ := initWith_cases a (takeAlloc s)
    · rw [he] at hr; cases hr
    · exact ⟨ta, ra, ha, rfl⟩

/-- All INIT does to a byte outside the register region: the allocator's draw in the table region, no change
elsewhere (R42, R100). -/
theorem initWith_get {ta ra x : Nat} {s : State} (hx : ¬inRegister s.cfg.addrBytes ra x) :
    (initWith ⟨some ta, some ra⟩ s).mem.get x =
      if inTable ta x then some (Config.leftByte s.env.draws x) else s.mem.get x := by
  rw [initWith_some, accept_mem, ← receiveTable_get, Memory.get_write, fmtreg_length]
  exact if_neg hx

/-- Settles O45: the invariant's mirror and its held bytes, read byte by byte; and after INIT the table region is the
allocator's draw, which the register record, lying apart, does not touch. -/
theorem tableRegionMirrorsSlot : Obligations.TableRegionMirrorsSlot := by
  refine ⟨fun s ta i k hinv hta hk => ⟨fun e he => ?_, fun _ => ?_⟩, fun s t ta h hr hta x hx => ?_⟩
  · exact Memory.get_of_read (hinv.mirror ta i e hta he) hk
  · exact Option.isSome_iff_exists.mp (hinv.tableHeld ta _ hta (inTable_slotAddr_add ta i hk))
  · obtain ⟨ta', ra, ha, rfl⟩ := execInit_ok h hr
    cases hta
    have hapart := not_inTable_and_inRegister (allocDuties_some (allocAnswer_duties ha)) x
    exact (initWith_get (s := takeAlloc s) fun hreg => hapart ⟨hx, hreg⟩).trans (if_pos hx)

/-! ### Which bytes a command changes (R40, R46) -/

/-- Memory: kept, or INSTALL writes one slot's bytes, or INIT sets up its two regions. -/
theorem Effect.mem_writers {i : Instr} {s t : State} (he : Effect i s t) :
    t.mem = s.mem ∨
      (∃ (k : Fin 16) (b l : Nat) (a g : Byte) (ta : Nat), i = .install (k.val : Int) b l a g ∧
        s.block.tableAddr = some ta ∧
        t.mem = s.mem.write (slotAddr ta k) (entryBytesOf (encodeEntry b l a g))) ∨
      (i = .init ∧ ∃ ta ra, t = initWith ⟨some ta, some ra⟩ (takeAlloc s)) := by
  cases he with
  | allocated hi hp ta ra ha h => exact .inr (.inr ⟨hi, ta, ra, h⟩)
  | installed k b l a g ta hi hp hta hb h => subst h; exact .inr (.inl ⟨k, b, l, a, g, ta, hi, hta, rfl⟩)
  | _ => subst_vars; exact .inl rfl

/-- Settles O27, over the writers of memory: a byte outside what each of them stores is as before. -/
theorem memoryChangesOnlyWhereTheBlockWrites : Obligations.MemoryChangesOnlyWhereTheBlockWrites := by
  intro i s t x h hne
  obtain ⟨-, he⟩ := exec_next h
  obtain hkept | ⟨k, b, l, a, g, ta, hi, hta, hmem⟩ | ⟨hi, ta, ra, rfl⟩ := he.mem_writers
  · exact absurd (congrArg (·.get x) hkept) hne
  · refine .inl ⟨k, b, l, a, g, ta, hi, hta, ?_⟩
    by_contra hout
    refine hne ?_
    rw [hmem, Memory.get_write, entryBytesOf_length]
    exact if_neg hout
  · by_cases hreg : inRegister s.cfg.addrBytes ra x
    · exact .inr (.inl ⟨hi, ra, rfl, hreg⟩)
    · have hget := initWith_get (ta := ta) (s := takeAlloc s) hreg
      by_cases htab : inTable ta x
      · exact .inr (.inr ⟨hi, ta, rfl, htab, hget.trans (if_pos htab)⟩)
      · exact absurd (hget.trans (if_neg htab)) hne

/-! ### The block makes no reads (R40, R46) -/

/-- From `m` to `n` and from `m'` to `n'` the same bytes were stored: at every address the outcomes read alike, or
both memories were left as they were. -/
def StoredAlike (m m' n n' : Memory) : Prop :=
  ∀ x, n'.get x = n.get x ∨ (n.get x = m.get x ∧ n'.get x = m'.get x)

theorem StoredAlike.refl (m m' : Memory) : StoredAlike m m' m m' := fun _ => .inr ⟨rfl, rfl⟩

theorem StoredAlike.write {m m' n n' : Memory} (h : StoredAlike m m' n n') (a : Nat) (bs : List Byte) :
    StoredAlike m m' (n.write a bs) (n'.write a bs) := by
  intro x
  rw [Memory.get_write, Memory.get_write]
  split_ifs
  · exact .inl rfl
  · exact h x

/-- What two runs of a command answer, the first from `s`, the second from `s` with `m` in place of its memory: the
same stop, or next states that differ in memory alone, where both stored the same bytes. -/
inductive SameButMemory (s : State) (m : Memory) : Result → Result → Prop where
  | next (t : State) (m' : Memory) (h : StoredAlike s.mem m t.mem m') :
      SameButMemory s m (.next t) (.next { t with mem := m' })
  | fault (f : Fault) : SameButMemory s m (.fault f) (.fault f)
  | refused (r : Refusal) : SameButMemory s m (.refused r) (.refused r)

section
variable {s : State} {m : Memory}

/-- A command that stores nothing. -/
theorem SameButMemory.kept {t : State} (h : t.mem = s.mem) : SameButMemory s m (.next t) (.next { t with mem := m }) :=
  .next t m (h ▸ .refl s.mem m)

/-- A check both runs decide alike. -/
theorem SameButMemory.ite {p : Prop} [Decidable p] {k k' l l' : Result} (hk : p → SameButMemory s m k k')
    (hl : ¬p → SameButMemory s m l l') : SameButMemory s m (if p then k else l) (if p then k' else l') := by
  by_cases hp : p
  · rw [if_pos hp, if_pos hp]; exact hk hp
  · rw [if_neg hp, if_neg hp]; exact hl hp

/-- The first check of every command looks at FAULT alone. -/
theorem SameButMemory.whenRunning {k k' : Result} (h : SameButMemory s m k k') :
    SameButMemory s m (whenRunning s k) (whenRunning { s with mem := m } k') :=
  .ite (fun _ => h) fun _ => .fault .halted

/-- Read off the answer of the first run. -/
theorem SameButMemory.outcomes {k k' : Result} (h : SameButMemory s m k k') :
    (∀ t, k = .next t → ∃ m', k' = .next { t with mem := m' } ∧ StoredAlike s.mem m t.mem m') ∧
      (∀ f, k = .fault f → k' = .fault f) ∧ (∀ r, k = .refused r → k' = .refused r) := by
  cases h with
  | next t m' h =>
    refine ⟨fun t' ht => ?_, fun _ hf => (nomatch hf), fun _ hr => (nomatch hr)⟩
    cases ht
    exact ⟨m', rfl, h⟩
  | fault f => exact ⟨fun _ ht => (nomatch ht), fun _ => id, fun _ hr => (nomatch hr)⟩
  | refused r => exact ⟨fun _ ht => (nomatch ht), fun _ hf => (nomatch hf), fun _ => id⟩

variable (s m)

theorem execFmtreg_sameButMemory (addr : Nat) :
    SameButMemory s m (execFmtreg addr s) (execFmtreg addr { s with mem := m }) :=
  .whenRunning (.ite (fun _ => .kept rfl) fun _ => .refused _)

/-- The allocator answers both runs alike; then the region it hands out and the register record are two writes. -/
theorem execInit_sameButMemory : SameButMemory s m (execInit s) (execInit { s with mem := m }) := by
  refine .whenRunning (.ite (fun _ => .kept rfl) fun _ => ?_)
  rw [show allocAnswer { s with mem := m } = allocAnswer s from rfl]
  cases allocAnswer s with
  | none => exact .refused _
  | some a =>
    obtain ⟨_ | ta, _ | ra⟩ := a
    · exact .kept rfl
    · exact .kept rfl
    · exact .kept rfl
    · exact .next _ _ (((StoredAlike.refl s.mem m).write ta _).write ra _)

theorem execInstall_sameButMemory (index : Int) (base limit : Nat) (access gran : Byte) :
    SameButMemory s m (execInstall index base limit access gran s)
      (execInstall index base limit access gran { s with mem := m }) := by
  refine .whenRunning (.ite (fun _ => .kept rfl) fun _ => ?_)
  cases slotIndex index with
  | none => exact .kept rfl
  | some i =>
    dsimp only
    cases s.block.tableAddr with
    | none => exact .fault _
    | some ta => exact .ite (fun _ => .next _ _ ((StoredAlike.refl s.mem m).write _ _)) fun _ => .fault _

/-- READSLOT answers from SLOT, not from the table region. -/
theorem execReadslot_sameButMemory (index : Int) :
    SameButMemory s m (execReadslot index s) (execReadslot index { s with mem := m }) := by
  refine .whenRunning (.ite (fun _ => .kept rfl) fun _ => ?_)
  cases slotIndex index with
  | none => exact .kept rfl
  | some i =>
    dsimp only
    cases s.block.slots[i] with
    | none => exact .kept rfl
    | some e => exact .kept rfl

/-- LOAD hands GDTR_REC's image to the CPU, not the register region, and the verdict sees events and SLOT alone. -/
theorem execLoad_sameButMemory (codeSel dataSel tlsSel : Selector) :
    SameButMemory s m (execLoad codeSel dataSel tlsSel s) (execLoad codeSel dataSel tlsSel { s with mem := m }) := by
  refine .whenRunning (.ite (fun _ => .kept rfl) fun _ => ?_)
  dsimp only
  cases s.block.regAddr with
  | none => exact .fault _
  | some ra =>
    cases s.block.gdtrRec with
    | none => exact .fault _
    | some g =>
      dsimp only [loadWith]
      rw [show verdictAnswer { s with mem := m } = verdictAnswer s from rfl]
      cases verdictAnswer s (loadSeq s.cfg ra g codeSel dataSel tlsSel) with
      | ok => exact .kept rfl
      | fault k => exact .kept rfl

theorem exec_sameButMemory (i : Instr) : SameButMemory s m (exec i s) (exec i { s with mem := m }) := by
  cases i with
  | encode base limit access gran => exact .whenRunning (.kept rfl)
  | fmtreg addr => exact execFmtreg_sameButMemory s m addr
  | init => exact execInit_sameButMemory s m
  | install index base limit access gran => exact execInstall_sameButMemory s m index base limit access gran
  | readslot index => exact execReadslot_sameButMemory s m index
  | load codeSel dataSel tlsSel => exact execLoad_sameButMemory s m codeSel dataSel tlsSel
  | reserved110 => exact .whenRunning (.kept rfl)
  | reserved111 => exact .whenRunning (.kept rfl)

end

/-- Settles O46: no command looks at memory, so the two runs answer the same but for it. -/
theorem blockNeverReadsMemory : Obligations.BlockNeverReadsMemory := fun i s m =>
  (exec_sameButMemory s m i).outcomes

end Sys2Proof.Machine

/-! The encoding of 30_encoding.md. The decoder one OP at a time, and from these that it inverts the encoder (R66 to
R68); the layout of the record's word (R61) and of the table image (R63); the written line read back (R70); then the
reserved OPs (R69) and the stops the model adds. -/

namespace Sys2Proof

/-! ### The decoder, one OP at a time -/

theorem decodeEncode_eq_ok {os : List Int} {i : Instr} : decodeEncode os = .ok i ↔
    ∃ (b l : Nat) (a g : Byte),
      os = [(b : Int), (l : Int), (a.toNat : Int), (g.toNat : Int)] ∧ i = .encode b l a g := by
  unfold decodeEncode
  split
  · simp only [except_bind_ok, asNatural_eq_ok, asBits_eq_ok]
    constructor
    · rintro ⟨b, rfl, l, rfl, a, rfl, g, rfl, ⟨⟩⟩
      exact ⟨b, l, a, g, rfl, rfl⟩
    · rintro ⟨b, l, a, g, ⟨⟩, rfl⟩
      exact ⟨b, rfl, l, rfl, a, rfl, g, rfl, rfl⟩
  · next hshape => exact ⟨nofun, fun ⟨b, l, a, g, hos, _⟩ => (hshape _ _ _ _ hos).elim⟩

theorem decodeFmtreg_eq_ok {w : AddrBytes} {os : List Int} {i : Instr} : decodeFmtreg w os = .ok i ↔
    ∃ a : Nat, os = [(a : Int)] ∧ a < w.space ∧ i = .fmtreg a := by
  unfold decodeFmtreg
  split
  · simp only [except_bind_ok, asAddr_eq_ok]
    constructor
    · rintro ⟨a, ⟨rfl, ha⟩, ⟨⟩⟩
      exact ⟨a, rfl, ha, rfl⟩
    · rintro ⟨a, ⟨⟩, ha, rfl⟩
      exact ⟨a, ⟨rfl, ha⟩, rfl⟩
  · next hshape => exact ⟨nofun, fun ⟨a, hos, _⟩ => (hshape _ hos).elim⟩

theorem decodeInit_eq_ok {os : List Int} {i : Instr} : decodeInit os = .ok i ↔ os = [] ∧ i = .init := by
  cases os with
  | nil => simp [decodeInit, eq_comm]
  | cons v vs => simp [decodeInit]

theorem decodeInstall_eq_ok {os : List Int} {i : Instr} : decodeInstall os = .ok i ↔
    ∃ (x : Int) (b l : Nat) (a g : Byte),
      os = [x, (b : Int), (l : Int), (a.toNat : Int), (g.toNat : Int)] ∧ i = .install x b l a g := by
  unfold decodeInstall
  split
  · next x _ _ _ _ =>
    simp only [except_bind_ok, asNatural_eq_ok, asBits_eq_ok]
    constructor
    · rintro ⟨b, rfl, l, rfl, a, rfl, g, rfl, ⟨⟩⟩
      exact ⟨x, b, l, a, g, rfl, rfl⟩
    · rintro ⟨x, b, l, a, g, ⟨⟩, rfl⟩
      exact ⟨b, rfl, l, rfl, a, rfl, g, rfl, rfl⟩
  · next hshape => exact ⟨nofun, fun ⟨x, b, l, a, g, hos, _⟩ => (hshape _ _ _ _ _ hos).elim⟩

theorem decodeReadslot_eq_ok {os : List Int} {i : Instr} : decodeReadslot os = .ok i ↔
    ∃ x : Int, os = [x] ∧ i = .readslot x := by
  unfold decodeReadslot
  split
  · simp [eq_comm]
  · next hshape => exact ⟨nofun, fun ⟨x, hos, _⟩ => (hshape _ hos).elim⟩

theorem decodeLoad_eq_ok {os : List Int} {i : Instr} : decodeLoad os = .ok i ↔
    ∃ c d t : Selector, os = [(c.toNat : Int), (d.toNat : Int), (t.toNat : Int)] ∧ i = .load c d t := by
  unfold decodeLoad
  split
  · simp only [except_bind_ok, asBits_eq_ok]
    constructor
    · rintro ⟨c, rfl, d, rfl, t, rfl, ⟨⟩⟩
      exact ⟨c, d, t, rfl, rfl⟩
    · rintro ⟨c, d, t, ⟨⟩, rfl⟩
      exact ⟨c, rfl, d, rfl, t, rfl, rfl⟩
  · next hshape => exact ⟨nofun, fun ⟨c, d, t, hos, _⟩ => (hshape _ _ _ hos).elim⟩

/-! ### The decoder and the encoder -/

theorem decode_encode {w : AddrBytes} {i : Instr} (hw : i.wellFormed w = true) : decode w (encode i) = .ok i := by
  cases i with
  | encode b l a g => exact decodeEncode_eq_ok.mpr ⟨b, l, a, g, rfl, rfl⟩
  | fmtreg a => exact decodeFmtreg_eq_ok.mpr ⟨a, rfl, of_decide_eq_true hw, rfl⟩
  | init => rfl
  | install x b l a g => exact decodeInstall_eq_ok.mpr ⟨x, b, l, a, g, rfl, rfl⟩
  | readslot x => rfl
  | load c d t => exact decodeLoad_eq_ok.mpr ⟨c, d, t, rfl, rfl⟩
  | reserved110 => rfl
  | reserved111 => rfl

/-- What decodes is well-formed, keeps its OP, and is the encoding of its instruction but for a reserved OP, whose
operands nothing looks at. -/
theorem encode_of_decode {w : AddrBytes} {c : Command} {i : Instr} (h : decode w c = .ok i) :
    i.wellFormed w = true ∧ (encode i).op = c.op ∧ (c.op.toNat < 6 → encode i = c) := by
  obtain ⟨op, os⟩ := c
  obtain rfl | rfl | rfl | rfl | rfl | rfl | rfl | rfl := op_cases op
  · obtain ⟨b, l, a, g, rfl, rfl⟩ := decodeEncode_eq_ok.mp h
    exact ⟨rfl, rfl, fun _ => rfl⟩
  · obtain ⟨a, rfl, ha, rfl⟩ := decodeFmtreg_eq_ok.mp h
    exact ⟨decide_eq_true ha, rfl, fun _ => rfl⟩
  · obtain ⟨rfl, rfl⟩ := decodeInit_eq_ok.mp h
    exact ⟨rfl, rfl, fun _ => rfl⟩
  · obtain ⟨x, b, l, a, g, rfl, rfl⟩ := decodeInstall_eq_ok.mp h
    exact ⟨rfl, rfl, fun _ => rfl⟩
  · obtain ⟨x, rfl, rfl⟩ := decodeReadslot_eq_ok.mp h
    exact ⟨rfl, rfl, fun _ => rfl⟩
  · obtain ⟨c, d, t, rfl, rfl⟩ := decodeLoad_eq_ok.mp h
    exact ⟨rfl, rfl, fun _ => rfl⟩
  · cases h
    exact ⟨rfl, rfl, fun hop => absurd hop (by simp)⟩
  · cases h
    exact ⟨rfl, rfl, fun hop => absurd hop (by simp)⟩

/-- Settles O36: the two directions, OP by OP. -/
theorem decodeEncodeAgree : Obligations.DecodeEncodeAgree := fun _ =>
  ⟨fun _ => decode_encode, fun _ _ => encode_of_decode⟩

/-! ### Which records are commands -/

/-- An integer of the width's range is the value of a bit vector. -/
theorem exists_bits {k : Nat} {v : Int} (h : 0 ≤ v ∧ v < (2 ^ k : Nat)) : ∃ x : BitVec k, v = x.toNat := by
  obtain ⟨n, rfl⟩ := Int.eq_ofNat_of_zero_le h.1
  exact ⟨BitVec.ofNat k n, by rw [BitVec.toNat_ofNat, Nat.mod_eq_of_lt (by exact_mod_cast h.2)]⟩

theorem operandsTyped_encode {w : AddrBytes} {i : Instr} (hw : i.wellFormed w = true) :
    operandsTyped w (encode i) := by
  cases i with
  | encode b l a g => exact ⟨by omega, by omega, by omega, by omega⟩
  | fmtreg a =>
    have ha : a < 2 ^ (8 * w.n) := of_decide_eq_true hw
    exact ⟨by omega, by exact_mod_cast ha⟩
  | init => trivial
  | install x b l a g => exact ⟨by omega, by omega, by omega, by omega⟩
  | readslot x => trivial
  | load c d t => exact ⟨by omega, by omega, by omega⟩
  | reserved110 => trivial
  | reserved111 => trivial

/-- An OP of no command is one of the two reserved ones. -/
theorem op_reserved {op : BitVec 3} (h : ¬op.toNat < 6) : op = 6#3 ∨ op = 7#3 := by
  revert op; decide

/-- The four operands ENCODE and INSTALL share. -/
theorem exists_fields {b l a g : Int} (h : 0 ≤ b ∧ 0 ≤ l ∧ (0 ≤ a ∧ a < 256) ∧ (0 ≤ g ∧ g < 256)) :
    ∃ (b' l' : Nat) (a' g' : Byte), b = b' ∧ l = l' ∧ a = a'.toNat ∧ g = g'.toNat := by
  obtain ⟨hb, hl, ha, hg⟩ := h
  obtain ⟨b, rfl⟩ := Int.eq_ofNat_of_zero_le hb
  obtain ⟨l, rfl⟩ := Int.eq_ofNat_of_zero_le hl
  obtain ⟨a, rfl⟩ := exists_bits (k := 8) ha
  obtain ⟨g, rfl⟩ := exists_bits (k := 8) hg
  exact ⟨b, l, a, g, rfl, rfl, rfl, rfl⟩

/-- A command is given by its OP's number and its operands. -/
theorem command_eq {c : Command} {op : BitVec 3} {os : List Int} (hop : c.op.toNat = op.toNat)
    (hos : c.operands = os) : c = ⟨op, os⟩ := by
  obtain rfl := BitVec.eq_of_toNat_eq hop
  subst hos
  rfl

/-- Typed operands with an OP of the six commands are those of a well-formed instruction. -/
theorem exists_encode_of_operandsTyped {w : AddrBytes} {c : Command} (h : operandsTyped w c) (hop : c.op.toNat < 6) :
    ∃ i : Instr, i.wellFormed w = true ∧ encode i = c := by
  unfold operandsTyped at h
  split at h
  · next h0 hos =>
    obtain ⟨b, l, a, g, rfl, rfl, rfl, rfl⟩ := exists_fields h
    exact ⟨.encode b l a g, rfl, (command_eq h0 hos).symm⟩
  · next h1 hos =>
    obtain ⟨a, rfl⟩ := Int.eq_ofNat_of_zero_le h.1
    exact ⟨.fmtreg a, decide_eq_true (by exact_mod_cast h.2), (command_eq h1 hos).symm⟩
  · next h2 hos => exact ⟨.init, rfl, (command_eq h2 hos).symm⟩
  · next x _ _ _ _ h3 hos =>
    obtain ⟨b, l, a, g, rfl, rfl, rfl, rfl⟩ := exists_fields h
    exact ⟨.install x b l a g, rfl, (command_eq h3 hos).symm⟩
  · next x h4 hos => exact ⟨.readslot x, rfl, (command_eq h4 hos).symm⟩
  · next h5 hos =>
    obtain ⟨hc, hd, ht⟩ := h
    obtain ⟨c, rfl⟩ := exists_bits (k := 16) hc
    obtain ⟨d, rfl⟩ := exists_bits (k := 16) hd
    obtain ⟨t, rfl⟩ := exists_bits (k := 16) ht
    exact ⟨.load c d t, rfl, (command_eq h5 hos).symm⟩
  · next h6 => omega
  · next h7 => omega
  · exact h.elim

/-- Settles O37: typed operands are exactly those of an encoding, and a reserved OP decodes whatever they are. -/
theorem decodeAcceptsExactlyTypedOperands : Obligations.DecodeAcceptsExactlyTypedOperands := by
  intro w c
  by_cases hop : c.op.toNat < 6
  · constructor
    · rintro ⟨i, hi⟩
      obtain ⟨hw, -, henc⟩ := encode_of_decode hi
      exact henc hop ▸ operandsTyped_encode hw
    · intro h
      obtain ⟨i, hw, rfl⟩ := exists_encode_of_operandsTyped h hop
      exact ⟨i, decode_encode hw⟩
  · obtain ⟨op, os⟩ := c
    obtain rfl | rfl := op_reserved hop
    · exact ⟨fun _ => trivial, fun _ => ⟨.reserved110, rfl⟩⟩
    · exact ⟨fun _ => trivial, fun _ => ⟨.reserved111, rfl⟩⟩

/-- Settles O35: each record written out is the encoding of its command. -/
theorem opcodeMapSanity : Obligations.OpcodeMapSanity := fun w =>
  ⟨decode_encode (i := .encode 0x1000 0xFFF 0x92#8 0x40#8) rfl,
    decode_encode (i := .fmtreg 0x00100000) (by cases w <;> decide), decode_encode (i := .init) rfl,
    decode_encode (i := .install (-1) 0 0xFFFFF 0x9A#8 0xCF#8) rfl, decode_encode (i := .readslot 7) rfl,
    decode_encode (i := .load 0x08#16 0x10#16 0x18#16) rfl, decode_encode (i := .reserved110) rfl,
    decode_encode (i := .reserved111) rfl⟩

end Sys2Proof

namespace Sys2Proof.Machine

/-! ### The record as one word (R61) -/

/-- The word of an encoded record as the table of R61 lays it out: each field of the record at its weight. -/
theorem word64_encodeEntry (base limit : Nat) (access gran : Byte) :
    word64 (encodeEntry base limit access gran) =
      limit % 2 ^ 16 + 2 ^ 16 * (base % 2 ^ 24) + 2 ^ 40 * access.toNat + 2 ^ 48 * (limit / 2 ^ 16 % 2 ^ 4) +
        2 ^ 52 * (gran.toNat / 16) + 2 ^ 56 * (base / 2 ^ 24 % 2 ^ 8) := by
  obtain ⟨h0, h1, h2, h3, h4, h5, h6, h7⟩ := encodeEntry_toNat base limit access gran
  have hlow : limit % 2 ^ 20 % 256 + 2 ^ 8 * (limit % 2 ^ 20 / 256 % 256) = limit % 2 ^ 16 := by omega
  have hhigh : limit % 2 ^ 20 / 2 ^ 16 = limit / 2 ^ 16 % 2 ^ 4 := by omega
  have hbase : base % 2 ^ 32 % 256 + 2 ^ 8 * (base % 2 ^ 32 / 2 ^ 8 % 256) +
      2 ^ 16 * (base % 2 ^ 32 / 2 ^ 16 % 256) = base % 2 ^ 24 := by omega
  have htop : base % 2 ^ 32 / 2 ^ 24 = base / 2 ^ 24 % 2 ^ 8 := by omega
  simp only [word64, entryBytesOf, fromLe, h0, h1, h2, h3, h4, h5, h6, h7, ← hlow, ← hbase, hhigh, htop]
  ring

/-- Settles O4: every field lies at its weight in the word, below the next field's. -/
theorem recordWordLayout : Obligations.RecordWordLayout := by
  intro base limit access gran
  have haccess := access.isLt
  have hgran := gran.isLt
  simp only [slice_eq, word64_encodeEntry]
  refine ⟨?_, ?_, ?_, ?_, ?_, ?_, ?_⟩ <;> omega

/-! ### The table image (R63) -/

/-- The 8 bytes of one slot in the table image. -/
def slotImage (s : Slot) : List (Option Byte) :=
  (List.range entryBytes).map fun k => s.bind fun e => (entryBytesOf e)[k]?

@[simp] theorem slotImage_length (s : Slot) : (slotImage s).length = 8 := by simp [slotImage]

theorem tableImage_eq (t : Slots) : tableImage t = t.toList.flatMap slotImage := by
  unfold tableImage
  congr 1
  funext s
  cases s <;> rfl

/-- In pieces of `n` laid end to end, position `n·i + k` is position `k` of piece `i`. -/
theorem getElem?_flatMap_of_length {α β : Type} {f : α → List β} {n k : Nat} (hf : ∀ a, (f a).length = n)
    (hk : k < n) (l : List α) (i : Nat) : (l.flatMap f)[n * i + k]? = l[i]?.bind fun a => (f a)[k]? := by
  induction l generalizing i with
  | nil => simp
  | cons a l ih =>
    rw [List.flatMap_cons]
    cases i with
    | zero => simp [List.getElem?_append_left (hf a ▸ hk)]
    | succ i =>
      have hpos : n * (i + 1) + k - (f a).length = n * i + k := by rw [hf, Nat.mul_succ]; omega
      rw [List.getElem?_append_right (by rw [hf, Nat.mul_succ]; omega), hpos, ih]
      rfl

/-- Settles O5: sixteen slot images of 8 bytes each. -/
theorem tableImageIsSlotsEndToEnd : Obligations.TableImageIsSlotsEndToEnd := by
  intro t
  rw [tableImage_eq]
  refine ⟨by simp [List.length_flatMap], fun i k hk => ?_⟩
  rw [getElem?_flatMap_of_length slotImage_length hk]
  simp [slotImage, hk]

/-! ### The call text (R70) -/

/-- The name written for an OP reads back as that OP, and holds no parenthesis and no blank. -/
theorem nameOfOp_plain {op : BitVec 3} {name : List Char} (h : nameOfOp op = some name) :
    opOfName name = some op ∧ ∀ c ∈ name, c ≠ '(' ∧ isBlank c = false := by
  obtain rfl | rfl | rfl | rfl | rfl | rfl | rfl | rfl := op_cases op <;> cases h <;> exact ⟨rfl, by simp [isBlank]⟩

theorem showOperands_cons_cons (v u : Int) (us : List Int) :
    showOperands (v :: u :: us) = showInt v ++ ',' :: ' ' :: showOperands (u :: us) := by
  simp [showOperands]

/-- The operand list of a written line begins with its first literal. -/
theorem showOperands_cons (v : Int) (vs : List Int) : ∃ rest, showOperands (v :: vs) = showInt v ++ rest := by
  cases vs with
  | nil => exact ⟨[], (List.append_nil _).symm⟩
  | cons u us => exact ⟨_, showOperands_cons_cons v u us⟩

theorem showOperands_no_paren {vs : List Int} : ∀ c ∈ showOperands vs, c ≠ ')' := by
  have hparen : ∀ v : Int, ∀ c ∈ showInt v, c ≠ ')' := fun v c hc => ((showInt_plain v).2 c hc).2.2.1
  induction vs with
  | nil => simp [showOperands]
  | cons v vs ih =>
    cases vs with
    | nil => exact hparen v
    | cons u us =>
      intro c hc
      rw [showOperands_cons_cons, List.mem_append, List.mem_cons, List.mem_cons] at hc
      obtain hc | rfl | rfl | hc := hc
      · exact hparen v c hc
      · decide
      · decide
      · exact ih c hc

theorem splitOn_ne_nil (sep : Char) (cs : List Char) : splitOn sep cs ≠ [] := by
  cases cs with
  | nil => simp [splitOn]
  | cons c cs => simp only [splitOn]; split_ifs <;> [simp; split <;> simp]

/-- A blank in front of the operands changes nothing: the first piece is trimmed. -/
theorem readAll_splitOn_blank (cs : List Char) : readAll (splitOn ',' (' ' :: cs)) = readAll (splitOn ',' cs) := by
  cases hs : splitOn ',' cs with
  | nil => exact absurd hs (splitOn_ne_nil _ _)
  | cons p ps =>
    have htrim : trim (' ' :: p) = trim p := by simp [trim, trimLeft, isBlank]
    simp [splitOn, hs, readAll, htrim]

/-- The written literals, cut at the commas, read back one by one. -/
theorem readAll_showOperands (v : Int) (vs : List Int) :
    readAll (splitOn ',' (showOperands (v :: vs))) = some (v :: vs) := by
  have hcomma : ∀ u : Int, ∀ c ∈ showInt u, c ≠ ',' := fun u c hc => ((showInt_plain u).2 c hc).1
  have htrim : ∀ u : Int, trim (showInt u) = showInt u := fun u =>
    trim_plain fun c hc => ((showInt_plain u).2 c hc).2.2.2
  induction vs generalizing v with
  | nil => simp [showOperands, splitOn_plain (hcomma v), readAll, htrim, readLiteral_showInt]
  | cons u us ih =>
    rw [showOperands_cons_cons, splitOn_append (hcomma v), readAll, htrim, readLiteral_showInt,
      readAll_splitOn_blank, ih]

theorem readOperands_showOperands (vs : List Int) : readOperands (showOperands vs) = some vs := by
  cases vs with
  | nil => rfl
  | cons v vs =>
    obtain ⟨hne, hplain⟩ := showInt_plain v
    obtain ⟨c, cs, hcs⟩ := List.exists_cons_of_ne_nil hne
    obtain ⟨rest, hrest⟩ := showOperands_cons v vs
    have hc : isBlank c = false := (hplain c (by simp [hcs])).2.2.2
    have hblank : ¬(showOperands (v :: vs)).all isBlank = true := by simp [hrest, hcs, hc]
    rw [readOperands, if_neg hblank, readAll_showOperands]

/-- A written line reads back as its record. -/
theorem readLine_showCommand {c : Command} {line : List Char} (h : showCommand c = some line) :
    readLine line = some c := by
  unfold showCommand at h
  split at h
  · next name hname =>
    obtain ⟨hop, hplain⟩ := nameOfOp_plain hname
    obtain rfl : name ++ '(' :: (showOperands c.operands ++ ')' :: []) = line := by simpa using h
    simp only [readLine, cutAt_append fun x hx => (hplain x hx).1, cutAt_append showOperands_no_paren,
      trim_plain fun x hx => (hplain x hx).2, hop, readOperands_showOperands, List.all_nil, if_true]
  · cases h

theorem readInstr_of_readLine {w : AddrBytes} {line : List Char} {i : Instr} (h : readLine line = some (encode i))
    (hw : i.wellFormed w = true) : readInstr w line = some i := by
  simp only [readInstr, h, decode_encode hw]

theorem exists_showCommand {i : Instr} (h110 : i ≠ .reserved110) (h111 : i ≠ .reserved111) :
    ∃ line, showCommand (encode i) = some line := by
  cases i with
  | reserved110 => exact absurd rfl h110
  | reserved111 => exact absurd rfl h111
  | _ => exact ⟨_, rfl⟩

/-- Settles O38: the line is cut back into its name and its literals, which read back as OP and operands. -/
theorem textReadsBackAsTheCommand : Obligations.TextReadsBackAsTheCommand := fun _ =>
  ⟨exists_showCommand, fun _ hline =>
    ⟨readLine_showCommand hline, fun _ => readInstr_of_readLine (readLine_showCommand hline)⟩⟩

/-! ### The reserved OPs and the stops the model adds -/

/-- Settles O17: the rejection E_ILLEGAL, code 3, sets bit 3. -/
theorem reservedOpsAreRejected : Obligations.ReservedOpsAreRejected := fun _ =>
  ⟨fun hf => ⟨exec_of_fault hf, exec_of_fault hf⟩,
    fun hf => ⟨whenRunning_of_running hf, whenRunning_of_running hf⟩, rfl⟩

theorem execFmtreg_tooWide {s : State} {addr : Nat} (hf : s.block.fault = none) (ha : ¬addr < s.cfg.addrBytes.space) :
    execFmtreg addr s = .refused (.illTyped .tooWide) := by
  rw [execFmtreg, whenRunning_of_running hf, if_neg ha]

section
variable {s : State} (hf : s.block.fault = none) (hp : s.block.phase ≠ .uninit)
include hf hp

theorem execInstall_noTable {index : Int} {i : Fin 16} (b l : Nat) (a g : Byte) (hi : slotIndex index = some i)
    (hta : s.block.tableAddr = none) : execInstall index b l a g s = .fault .noTable := by
  simp only [execInstall, whenRunning_of_running hf, if_neg hp, hi, hta]

theorem execInstall_outsideMemory {index : Int} {i : Fin 16} {ta : Nat} (b l : Nat) (a g : Byte)
    (hi : slotIndex index = some i) (hta : s.block.tableAddr = some ta)
    (hend : s.cfg.addrBytes.space < slotAddr ta i + entryBytes) :
    execInstall index b l a g s = .fault .outsideMemory := by
  simp only [execInstall, whenRunning_of_running hf, if_neg hp, hi, hta, if_neg (Nat.not_le.mpr hend)]

theorem execLoad_noTable (c d t : Selector) (h : s.block.regAddr = none ∨ s.block.gdtrRec = none) :
    execLoad c d t s = .fault .noTable := by
  rw [execLoad, whenRunning_of_running hf, if_neg hp]
  split
  · next hra hg => simp [hra, hg] at h
  · rfl

end

/-- Settles O34, path by path. -/
theorem stopsTheModelAddsAreNamed : Obligations.StopsTheModelAddsAreNamed := by
  intro s hf
  refine ⟨fun _ => execFmtreg_tooWide hf, fun hp i b l a g => ?_, fun hp h c d t => execLoad_noTable hf hp c d t h⟩
  have hi : slotIndex (i.val : Int) = some i := slotIndex_eq_some.mpr rfl
  exact ⟨execInstall_noTable hf hp b l a g hi, fun _ => execInstall_outsideMemory hf hp b l a g hi⟩

end Sys2Proof.Machine

/-! The encoder of 40_encoder.md. The reference decoder and the encoder are inverse to each other, up to masking (R84,
R85); ENCODE answers the record (R82). -/

namespace Sys2Proof.Machine

/-! ### ENCODE -/

/-- Settles O1: the record of `encodeEntry`, each byte a slice of its operand below the operand's mask. -/
theorem encodeAnswersTheRecord : Obligations.EncodeAnswersTheRecord := by
  intro s base limit access gran
  refine ⟨exec_of_fault, fun hf => ⟨encodeEntry base limit access gran, whenRunning_of_running hf, ?_⟩⟩
  obtain ⟨h0, h1, h2, h3, h4, h5, h6, h7⟩ := encodeEntry_toNat base limit access gran
  rw [h0, h1, h2, h3, h4, h6, h7]
  refine ⟨?_, ?_, ?_, ?_, ?_, h5, ?_, ?_⟩ <;> omega

/-! ### The reference decoder inverts the encoder, up to masking (R84) -/

/-- The mask 0xF0 keeps the high nibble of a byte at its place. -/
theorem and_highNibble_toNat : ∀ b : Byte, (b &&& 0xF0#8).toNat = b.toNat / 16 * 16 := by decide

theorem decodeEntry_encodeEntry (base limit : Nat) (access gran : Byte) :
    decodeEntry (encodeEntry base limit access gran) =
      ⟨base % 2 ^ 32, limit % 2 ^ 20, access, gran &&& 0xF0#8⟩ := by
  obtain ⟨h0, h1, h2, h3, h4, h5, h6, h7⟩ := encodeEntry_toNat base limit access gran
  obtain ⟨hbase, hlimit, haccess, hflags⟩ := decodeEntry_sums (encodeEntry base limit access gran)
  have hgran := and_highNibble_toNat gran
  rw [Fields.mk.injEq]
  refine ⟨?_, ?_, haccess.trans h5, BitVec.eq_of_toNat_eq ?_⟩ <;> omega

/-- The encoder looks at its operands below their masks only, and at the high nibble of `gran` only. -/
theorem encodeEntry_congr {b l b' l' : Nat} {g g' : Byte} (a : Byte) (hb : b % 2 ^ 32 = b' % 2 ^ 32)
    (hl : l % 2 ^ 20 = l' % 2 ^ 20) (hg : g.toNat / 2 ^ 4 = g'.toNat / 2 ^ 4) :
    encodeEntry b l a g = encodeEntry b' l' a g' := by
  simp only [encodeEntry, mask, slice_eq, hb, hl, hg]

/-- Settles O2: the round trip, and what the masks leave out is not looked at. -/
theorem decodeRecoversEncodedFields : Obligations.DecodeRecoversEncodedFields := by
  intro base limit access gran
  have hround := decodeEntry_encodeEntry base limit access gran
  refine ⟨fun hb hl => ?_, hround, encodeEntry_congr access (Nat.mod_mod _ _) (Nat.mod_mod _ _) rfl⟩
  rw [hround, Nat.mod_eq_of_lt hb, Nat.mod_eq_of_lt hl]

/-! ### Records and masked fields correspond (R85) -/

theorem encodeEntry_inj {b l b' l' : Nat} {a g a' g' : Byte} (h : encodeEntry b l a g = encodeEntry b' l' a' g') :
    b % 2 ^ 32 = b' % 2 ^ 32 ∧ l % 2 ^ 20 = l' % 2 ^ 20 ∧ a = a' ∧ g.toNat / 2 ^ 4 = g'.toNat / 2 ^ 4 := by
  have hfields := congrArg decodeEntry h
  rw [decodeEntry_encodeEntry, decodeEntry_encodeEntry, Fields.mk.injEq] at hfields
  obtain ⟨hb, hl, ha, hg⟩ := hfields
  have hnibble := congrArg BitVec.toNat hg
  rw [and_highNibble_toNat, and_highNibble_toNat] at hnibble
  exact ⟨hb, hl, ha, by omega⟩

theorem decodeEntry_inRange (e : Entry) : (decodeEntry e).base < 2 ^ 32 ∧ (decodeEntry e).limit < 2 ^ 20 := by
  obtain ⟨hbase, hlimit, -, -⟩ := decodeEntry_sums e
  constructor <;> omega

/-- Every record is the encoding of its own decoded fields. -/
theorem encodeEntry_decodeEntry (e : Entry) :
    encodeEntry (decodeEntry e).base (decodeEntry e).limit (decodeEntry e).access (decodeEntry e).gflags = e := by
  obtain ⟨hbase, hlimit, haccess, hflags⟩ := decodeEntry_sums e
  obtain ⟨h0, h1, h2, h3, h4, h5, h6, h7⟩ :=
    encodeEntry_toNat (decodeEntry e).base (decodeEntry e).limit (decodeEntry e).access (decodeEntry e).gflags
  apply entry_eq_of_toNat
  case h5 => exact h5.trans haccess
  all_goals omega

/-- Settles O3: the encoder and the reference decoder are inverse to each other on the masked fields. -/
theorem recordsAndMaskedFieldsCorrespond : Obligations.RecordsAndMaskedFieldsCorrespond := by
  refine ⟨fun b l b' l' a g a' g' => ⟨encodeEntry_inj, ?_⟩, fun e => ?_, fun b l a g => entryBytesOf_length _⟩
  · rintro ⟨hb, hl, rfl, hg⟩
    exact encodeEntry_congr a hb hl hg
  · obtain ⟨hbase, hlimit⟩ := decodeEntry_inRange e
    exact ⟨_, _, _, _, hbase, hlimit, encodeEntry_decodeEntry e⟩

end Sys2Proof.Machine

/-! The table of 41_table.md. INIT, INSTALL and READSLOT on every path, from the equation of each path and what the
path's effect reads as; the read-back law; which command draws from the environment. -/

namespace Sys2Proof.Machine

/-- What `reject` leaves, in the terms of the statements (R10, R30, R151). -/
theorem reject_eq_rejectedState (r : Rejection) (s : State) : reject r s = rejectedState r s := by
  rw [reject, respond, setReject_eq]

/-! ### INIT (R100) -/

/-- INIT leaves the image of GDTR_REC in the register region (R43): the record is stored last. -/
theorem initWith_read_register (ta ra : Nat) (s : State) :
    (initWith ⟨some ta, some ra⟩ s).mem.read ra s.cfg.addrBytes.regBytes = some (fmtreg s.cfg.addrBytes ta) := by
  have hread := Memory.read_write_same (receiveTable ta s).mem ra (fmtreg s.cfg.addrBytes ta)
  rwa [fmtreg_length] at hread

/-- Settles O8, path by path. After a success a byte of the table region is the allocator's draw, since the register
record lies apart from it. -/
theorem initFollowsItsRule : Obligations.InitFollowsItsRule := by
  intro s
  refine ⟨exec_of_fault, fun hf hp => ?reinit, fun hf hp a ha hfail => ?failed, fun hf hp ta ra ha => ?allocated⟩
  case reinit =>
    rw [← reject_eq_rejectedState]
    exact execInit_reinit hf hp
  case failed =>
    have hstep := execInit_answered hf hp ha
    rw [initWith_fail _ hfail] at hstep
    exact ⟨_, hstep, rfl, rfl, rfl, rfl, rfl, rfl⟩
  case allocated =>
    have hapart := not_inTable_and_inRegister (allocDuties_some (allocAnswer_duties ha))
    refine ⟨_, execInit_answered hf hp ha, rfl, rfl, initWith_read_register ta ra (takeAlloc s), fun x hx => ?_,
      fun x hreg htab => ?_, rfl, rfl, rfl⟩
    · exact ⟨_, (initWith_get (s := takeAlloc s) fun hreg => hapart x ⟨hx, hreg⟩).trans (if_pos hx)⟩
    · exact (initWith_get (s := takeAlloc s) hreg).trans (if_neg htab)

/-! ### INSTALL (R101) -/

/-- The slot's bytes in memory are the record INSTALL stored. -/
theorem installAt_read_slot (ta : Nat) (i : Fin 16) (e : Entry) (s : State) :
    (installAt ta i e s).mem.read (slotAddr ta i) 8 = some (entryBytesOf e) :=
  Memory.read_write_same s.mem (slotAddr ta i) (entryBytesOf e)

theorem installAt_get_outside {ta x : Nat} {i : Fin 16} (e : Entry) (s : State)
    (h : x < slotAddr ta i ∨ slotAddr ta i + 8 ≤ x) : (installAt ta i e s).mem.get x = s.mem.get x :=
  Memory.get_write_outside h

/-- Settles O10, path by path. -/
theorem installFollowsItsRule : Obligations.InstallFollowsItsRule := by
  intro s index base limit access gran
  simp only [← reject_eq_rejectedState]
  refine ⟨exec_of_fault, execInstall_notAlloc index base limit access gran,
    fun hf hp hi => execInstall_badIndex base limit access gran hf hp (slotIndex_eq_none.mpr hi),
    fun hf hp i ta hi hta hb => ?_⟩
  have hstep := execInstall_installed base limit access gran hf hp (slotIndex_eq_some.mpr hi) hta hb
  exact ⟨_, hstep, rfl, rfl, installAt_read_slot ta i _ s, fun _ => installAt_get_outside _ s, rfl, rfl, rfl, rfl⟩

/-! ### READSLOT (R102) -/

/-- Settles O11, path by path. -/
theorem readslotFollowsItsRule : Obligations.ReadslotFollowsItsRule := by
  intro s index
  simp only [← reject_eq_rejectedState]
  exact ⟨exec_of_fault, execReadslot_notAlloc index,
    fun hf hp hi => execReadslot_badIndex hf hp (slotIndex_eq_none.mpr hi),
    fun hf hp _ hi => execReadslot_unwritten hf hp (slotIndex_eq_some.mpr hi),
    fun hf hp _ _ hi => execReadslot_written hf hp (slotIndex_eq_some.mpr hi)⟩

/-! ### The read-back law (R104) -/

theorem installAt_slots_same (ta : Nat) (i : Fin 16) (e : Entry) (s : State) :
    (installAt ta i e s).block.slots[i] = some e := by
  simp

theorem installAt_slots_other (ta : Nat) {i j : Fin 16} (e : Entry) (s : State) (h : j ≠ i) :
    (installAt ta i e s).block.slots[j] = s.block.slots[j] :=
  Vector.getElem_set_ne i.isLt j.isLt fun he => h (Fin.ext he.symm)

/-- An INSTALL taken outside UNINIT at an index of the table wrote its slot. -/
theorem execInstall_inRange {i : Fin 16} {b l : Nat} {a g : Byte} {s t : State} (hp : s.block.phase ≠ .uninit)
    (h : execInstall (i.val : Int) b l a g s = .next t) :
    s.block.fault = none ∧ ∃ ta, t = accept [] (installAt ta i (encodeEntry b l a g) s) := by
  have hi : slotIndex (i.val : Int) = some i := slotIndex_eq_some.mpr rfl
  obtain ⟨hf, ⟨huninit, -⟩ | ⟨-, hout, -⟩ | ⟨-, j, ta, hj, -, -, rfl⟩⟩ := execInstall_next h
  · exact absurd huninit hp
  · cases hi.symm.trans (slotIndex_eq_none.mpr hout)
  · cases hi.symm.trans hj
    exact ⟨hf, ta, rfl⟩

/-- Settles O12: READSLOT finds the slot INSTALL wrote, with FAULT and PHASE as INSTALL found them. -/
theorem readBackLaw : Obligations.ReadBackLaw := by
  intro s t i base limit access gran hp h
  obtain ⟨hf, ta, rfl⟩ := execInstall_inRange hp h
  exact ⟨execReadslot_written hf hp (slotIndex_eq_some.mpr rfl) (installAt_slots_same ta i _ s),
    fun _ hj => installAt_slots_other ta _ s hj⟩

/-! ### The draws (R100, R132; log entries 5 to 7) -/

theorem initWith_env (a : AllocPair) (s : State) : (initWith a s).env = s.env := by
  obtain hfail | ⟨ta, ra, rfl⟩ := initWith_cases a s
  · rw [hfail, raise_env]
  · rfl

/-- LOAD takes one verdict. The counter moves on once, and once more under Fault(k), where ACTIVE is drawn. -/
theorem loadWith_env (ra : Nat) (g : GdtrRec) (c d ts : Selector) (s : State) :
    (loadWith ra g c d ts s).env.allocs = s.env.allocs ∧
      (loadWith ra g c d ts s).env.verdicts = s.env.verdicts.tail ∧
      s.env.draws < (loadWith ra g c d ts s).env.draws := by
  obtain ⟨-, hload⟩ | ⟨k, -, hload⟩ := loadWith_cases ra g c d ts s <;> rw [hload]
  · exact ⟨rfl, rfl, Nat.lt_succ_self _⟩
  · exact ⟨rfl, rfl, Nat.lt_add_of_pos_right Nat.two_pos⟩

/-- The environment: kept but by INIT in UNINIT and LOAD outside it. -/
theorem Effect.env_writers {i : Instr} {s t : State} (he : Effect i s t) :
    t.env = s.env ∨ (i = .init ∧ s.block.phase = .uninit) ∨
      ((∃ c d ts, i = .load c d ts) ∧ s.block.phase ≠ .uninit) := by
  cases he with
  | allocFailed hi hp h => exact .inr (.inl ⟨hi, hp⟩)
  | allocated hi hp ta ra ha h => exact .inr (.inl ⟨hi, hp⟩)
  | loaded c d ts ra g hi hp hra hg hv h => exact .inr (.inr ⟨⟨c, d, ts, hi⟩, hp⟩)
  | faulted c d ts ra g k hi hp hra hg hv h => exact .inr (.inr ⟨⟨c, d, ts, hi⟩, hp⟩)
  | _ => subst_vars; exact .inl rfl

/-- Settles O33: what the two commands that draw take, and that the writers of the environment are these two. -/
theorem drawsAreTakenInTurn : Obligations.DrawsAreTakenInTurn := by
  intro i s t h
  refine ⟨?init, ?load, fun hinit hload => ?other⟩
  case init =>
    rintro rfl hp
    obtain ⟨-, ⟨hne, -⟩ | ⟨-, a, -, rfl⟩⟩ := execInit_next h
    · exact absurd hp hne
    · exact initWith_env a (takeAlloc s)
  case load =>
    rintro c d ts rfl hp
    obtain ⟨-, ⟨huninit, -⟩ | ⟨-, ra, g, -, -, rfl⟩⟩ := execLoad_next h
    · exact absurd huninit hp
    · exact loadWith_env ra g c d ts s
  case other =>
    obtain ⟨-, he⟩ := exec_next h
    exact he.env_writers.resolve_right fun hdraw => hdraw.elim hinit hload

end Sys2Proof.Machine

/-! The register formatter of 42_register.md. The record is the limit's two bytes and then the address, lowest byte
first (R121), so FMTREG's answer and the record's fields are read off it (R122, R123); what INIT that answers OK leaves
in the registers and in memory is known from `execInit_ok`. -/

namespace Sys2Proof.Machine

/-! ### The register record (R121) -/

/-- The record byte by byte: REG_LIMIT = 0x0081 (R120), then the address. -/
theorem fmtreg_eq (w : AddrBytes) (addr : Nat) : fmtreg w addr = 0x81#8 :: 0x00#8 :: le w.n addr := rfl

/-- Byte `2 + k` of the record is byte `k` of the address. -/
theorem fmtreg_getElem?_addr {w : AddrBytes} {k : Nat} (addr : Nat) (hk : k < w.n) :
    (fmtreg w addr)[2 + k]? = some (BitVec.ofNat 8 (addr / 2 ^ (8 * k))) := by
  rw [fmtreg_eq, Nat.add_comm, List.getElem?_cons_succ, List.getElem?_cons_succ, le_getElem? addr hk]

/-- The first two bytes, read back, are the limit. -/
theorem fromLe_take_fmtreg (w : AddrBytes) (addr : Nat) : fromLe ((fmtreg w addr).take 2) = 129 := rfl

/-- The other bytes, read back, are the address, where it fits its width. -/
theorem fromLe_drop_fmtreg {w : AddrBytes} {addr : Nat} (h : addr < w.space) :
    fromLe ((fmtreg w addr).drop 2) = addr :=
  calc fromLe ((fmtreg w addr).drop 2)
    _ = fromLe (le w.n addr) := by rw [fmtreg_eq, List.drop_succ_cons, List.drop_succ_cons, List.drop_zero]
    _ = addr % w.space := fromLe_le w.n addr
    _ = addr := Nat.mod_eq_of_lt h

/-! ### FMTREG (R122) -/

/-- Settles O6: an addr that fits is answered with its record, whose bytes are those of `fmtreg_eq`. -/
theorem fmtregAnswersThePackedRecord : Obligations.FmtregAnswersThePackedRecord := fun _ addr =>
  ⟨exec_of_fault, fun hf ha =>
    ⟨_, execFmtreg_fits hf ha, fmtreg_length _ addr, rfl, rfl, fun _ => fmtreg_getElem?_addr addr⟩⟩

/-! ### The record's laws (R123) -/

/-- Settles O7: the record's fields, read back; and an INIT that answers OK stores the record of the TABLE_ADDR it
keeps. -/
theorem fmtregLaws : Obligations.FmtregLaws := by
  refine ⟨fun w addr haddr => ⟨fmtreg_length w addr, fromLe_take_fmtreg w addr, fromLe_drop_fmtreg haddr⟩,
    fun s t h hr => ?_⟩
  obtain ⟨ta, ra, -, rfl⟩ := execInit_ok h hr
  exact ⟨ta, ra, rfl, rfl, rfl, initWith_read_register ta ra (takeAlloc s)⟩

end Sys2Proof.Machine

/-! LOAD of 43_load.md. LOAD under each verdict, one equation per verdict; what a LOAD that answers OK has done; the six
values of DATA_RELOAD_ORDER; and the events of a run, which are whole groups of six while FAULT is not E_CPU. -/

namespace Sys2Proof.Machine

/-! ### LOAD on every path (R130, R133) -/

/-- LOAD's sequence in the terms of the statements. -/
theorem loadSeq_eq_loadEvents (c : Config) (ra : Nat) (g : GdtrRec) (codeSel dataSel tlsSel : Selector) :
    loadSeq c ra g codeSel dataSel tlsSel =
      loadEvents c.addrBytes ra g.addr (reloadSegs c.reloadOrder) codeSel dataSel tlsSel := rfl

section
variable {s : State} {ra : Nat} {g : GdtrRec} (codeSel dataSel tlsSel : Selector)

theorem loadWith_ok (hv : verdictAnswer s (loadSeq s.cfg ra g codeSel dataSel tlsSel) = .ok) :
    loadWith ra g codeSel dataSel tlsSel s =
      loadAccepted (loadSeq s.cfg ra g codeSel dataSel tlsSel) (activation g codeSel dataSel tlsSel s.block.slots)
        (takeVerdict s) := by
  obtain ⟨-, hload⟩ | ⟨k, hk, -⟩ := loadWith_cases ra g codeSel dataSel tlsSel s
  · exact hload
  · cases hv.symm.trans hk

theorem loadWith_fault {k : Fin 6} (hv : verdictAnswer s (loadSeq s.cfg ra g codeSel dataSel tlsSel) = .fault k) :
    loadWith ra g codeSel dataSel tlsSel s =
      loadFaulted (loadSeq s.cfg ra g codeSel dataSel tlsSel) k (takeVerdict s) := by
  obtain ⟨hok, -⟩ | ⟨k', hk', hload⟩ := loadWith_cases ra g codeSel dataSel tlsSel s
  · cases hv.symm.trans hok
  · cases hv.symm.trans hk'
    exact hload

end

/-- Settles O14, path by path; after Fault(k) no command has a step, since FAULT is set. -/
theorem loadFollowsItsRule : Obligations.LoadFollowsItsRule := by
  intro s codeSel dataSel tlsSel
  simp only [← reject_eq_rejectedState, ← loadSeq_eq_loadEvents]
  refine ⟨exec_of_fault, execLoad_notAlloc codeSel dataSel tlsSel,
    fun hf hp ra g hra hg => ⟨fun hv => ?ok, fun k hv => ?fault⟩⟩
  case ok =>
    have hstep := execLoad_issued codeSel dataSel tlsSel hf hp hra hg
    rw [loadWith_ok codeSel dataSel tlsSel hv] at hstep
    exact ⟨_, hstep, rfl, rfl, rfl, rfl, rfl, rfl⟩
  case fault =>
    have hstep := execLoad_issued codeSel dataSel tlsSel hf hp hra hg
    rw [loadWith_fault codeSel dataSel tlsSel hv] at hstep
    exact ⟨_, _, hstep, rfl, rfl, rfl, rfl, rfl, rfl, fun _ => exec_of_fault (Option.some_ne_none _)⟩

/-! ### The order of the events (R134) -/

/-- A LOAD that answers OK found its register record and was accepted by the CPU. -/
theorem execLoad_ok {codeSel dataSel tlsSel : Selector} {s t : State} {bs : List Byte}
    (h : execLoad codeSel dataSel tlsSel s = .next t) (hr : t.resp = some ⟨.ok, bs⟩) :
    ∃ ra g, s.block.regAddr = some ra ∧ s.block.gdtrRec = some g ∧
      t = loadAccepted (loadSeq s.cfg ra g codeSel dataSel tlsSel)
        (activation g codeSel dataSel tlsSel s.block.slots) (takeVerdict s) := by
  obtain ⟨-, ⟨-, rfl⟩ | ⟨-, ra, g, hra, hg, rfl⟩⟩ := execLoad_next h
  · cases hr
  · obtain ⟨-, hload⟩ | ⟨k, -, hload⟩ := loadWith_cases ra g codeSel dataSel tlsSel s
    · exact ⟨ra, g, hra, hg, hload⟩
    · rw [hload] at hr; cases hr

/-- The values of DATA_RELOAD_ORDER are the permutations of DS, ES and SS (R5). -/
theorem perm_iff_exists_reloadSegs (s1 s2 s3 : Seg) :
    [s1, s2, s3].Perm [.ds, .es, .ss] ↔ ∃ o, reloadSegs o = (s1, s2, s3) := by
  constructor
  · intro h
    have hsix : (s1 = .ds ∧ s2 = .es ∧ s3 = .ss) ∨ (s1 = .es ∧ s2 = .ds ∧ s3 = .ss) ∨
        (s1 = .es ∧ s2 = .ss ∧ s3 = .ds) ∨ (s1 = .ds ∧ s2 = .ss ∧ s3 = .es) ∨
        (s1 = .ss ∧ s2 = .ds ∧ s3 = .es) ∨ (s1 = .ss ∧ s2 = .es ∧ s3 = .ds) := by
      simpa [List.permutations', List.permutations'Aux] using List.mem_permutations'.mpr h
    obtain ⟨rfl, rfl, rfl⟩ | ⟨rfl, rfl, rfl⟩ | ⟨rfl, rfl, rfl⟩ | ⟨rfl, rfl, rfl⟩ | ⟨rfl, rfl, rfl⟩ |
      ⟨rfl, rfl, rfl⟩ := hsix
    · exact ⟨.dsEsSs, rfl⟩
    · exact ⟨.esDsSs, rfl⟩
    · exact ⟨.esSsDs, rfl⟩
    · exact ⟨.dsSsEs, rfl⟩
    · exact ⟨.ssDsEs, rfl⟩
    · exact ⟨.ssEsDs, rfl⟩
  · rintro ⟨o, ho⟩
    cases o <;> cases ho <;> decide

/-- Settles O15: a LOAD that answers OK appends its whole sequence. -/
theorem loadEmitsSixEventsInOrder : Obligations.LoadEmitsSixEventsInOrder := by
  refine ⟨⟨rfl, rfl, rfl, rfl, rfl, rfl⟩, perm_iff_exists_reloadSegs, fun s t codeSel dataSel tlsSel h hr => ?_⟩
  obtain ⟨ra, g, hra, -, rfl⟩ := execLoad_ok h hr
  exact ⟨ra, fmtreg s.cfg.addrBytes g.addr, _, _, _, hra, rfl, rfl⟩

/-! ### EVENTS over a run (R133, R134) -/

/-- The events `es` are whole LOAD groups, end to end. -/
def WholeGroups (c : Config) (es : List Event) : Prop :=
  ∃ groups : List (List Event), (∀ g ∈ groups, IsLoadGroup c g) ∧ es = groups.flatten

theorem WholeGroups.append {c : Config} {es g : List Event} (hes : WholeGroups c es) (hg : IsLoadGroup c g) :
    WholeGroups c (es ++ g) := by
  obtain ⟨groups, hgroups, rfl⟩ := hes
  refine ⟨groups ++ [g], ?_, List.flatten_concat.symm⟩
  exact List.forall_mem_append.mpr ⟨hgroups, List.forall_mem_singleton.mpr hg⟩

/-- Where FAULT is not E_CPU, `State.EventsGrouped` says that EVENTS is whole groups. -/
theorem eventsGrouped_iff_wholeGroups {s : State} (h : ∀ k, s.block.fault ≠ some (.eCpu k)) :
    s.EventsGrouped ↔ WholeGroups s.cfg s.block.events := by
  unfold State.EventsGrouped WholeGroups
  split
  · next k hk => exact absurd hk (h k)
  · rfl

/-- After E_CPU with sub-step `k`, whole groups and one cut after its event `k` are what `State.EventsGrouped` asks. -/
theorem eventsGrouped_of_cut {s : State} {k : Fin 6} {es g : List Event} (hf : s.block.fault = some (.eCpu k))
    (hes : WholeGroups s.cfg es) (hg : IsLoadGroup s.cfg g) (hev : s.block.events = es ++ g.take (k.val + 1)) :
    s.EventsGrouped := by
  obtain ⟨groups, hgroups, rfl⟩ := hes
  refine ⟨groups, hgroups, ?_⟩
  rw [hf]
  exact ⟨g, hg, hev⟩

/-- LOAD appends one group, whole or cut at the faulting sub-step; every other effect leaves EVENTS. -/
theorem Effect.eventsGrouped {i : Instr} {s t : State} (he : Effect i s t) (hf : s.block.fault = none)
    (hs : s.EventsGrouped) : t.EventsGrouped := by
  have hrunning : ∀ k, s.block.fault ≠ some (.eCpu k) := by simp [hf]
  have hwhole := (eventsGrouped_iff_wholeGroups hrunning).mp hs
  cases he with
  | allocFailed hi hp h =>
    subst h
    exact (eventsGrouped_iff_wholeGroups (by simp)).mpr hwhole
  | loaded c d ts ra g hi hp hra hg hv h =>
    subst h
    exact (eventsGrouped_iff_wholeGroups (by exact hrunning)).mpr (hwhole.append ⟨ra, g, c, d, ts, rfl⟩)
  | faulted c d ts ra g k hi hp hra hg hv h =>
    subst h
    exact eventsGrouped_of_cut rfl hwhole ⟨ra, g, c, d, ts, rfl⟩ rfl
  | _ => subst_vars; exact hs

/-- Settles O42: a step waits, empties EVENTS by reset, or runs one command of a running block. -/
theorem stepKeepsEventsGrouped : Obligations.StepKeepsEventsGrouped := by
  intro s t hs hstep
  obtain ⟨-, -, rfl⟩ | ⟨-, rfl⟩ | ⟨c, i, -, -, -, hexec⟩ := step_next hstep
  · exact hs
  · exact ⟨[], fun _ h => (nomatch h), rfl⟩
  · obtain ⟨hf, he⟩ := exec_next hexec
    exact he.eventsGrouped hf hs

end Sys2Proof.Machine

/-! Rejections and fatal faults of 60_exceptions.md. The halt (R153); R154's order, both ways: the check that applies
first rejects the command, and no other command is rejected; what a response that is a rejection or a fatal fault tells
of the step (R151); and the status codes of each command (R152). -/

namespace Sys2Proof.Machine

/-! ### The halt (R153) -/

/-- With FAULT set a step is taken by reset only. -/
theorem step_of_fault {s : State} (hf : s.block.fault ≠ none) (hq : s.pending.head? ≠ some .reset) :
    step s = .fault .halted := by
  unfold step fetch
  cases hp : s.pending with
  | nil => simp only [if_neg hf]
  | cons x rest =>
    cases x with
    | reset => exact absurd (congrArg List.head? hp) hq
    | command c => simp only [if_neg hf]

/-- Settles O24: every command checks FAULT, and so do waiting and taking a command, so a step left is a reset. -/
theorem haltedBlockTakesOnlyReset : Obligations.HaltedBlockTakesOnlyReset := by
  refine fun s hf => ⟨fun _ => exec_of_fault hf, fun c hc => step_of_fault hf (by simp [hc]), fun t hstep => ?_⟩
  obtain ⟨-, hrun, -⟩ | ⟨hreset, rfl⟩ | ⟨c, i, -, hrun, -⟩ := step_next hstep
  · exact absurd hrun hf
  · exact ⟨hreset, rfl⟩
  · exact absurd hrun hf

/-! ### The index check in the terms of `firstRejection` (R103) -/

theorem inRange_iff_lt {index : Int} : inRange index ↔ 0 ≤ index ∧ index < 16 := by
  rw [inRange]
  omega

theorem slotIndex_eq_some_lt {index : Int} {i : Fin 16} (hi : slotIndex index = some i) :
    0 ≤ index ∧ index < 16 := by
  have hlt := i.isLt
  rw [slotIndex_eq_some.mp hi]
  omega

theorem exists_slotIndex {index : Int} (h : inRange index) : ∃ i, slotIndex index = some i :=
  ⟨_, dif_pos h⟩

theorem slots_getElem?_of_slotIndex {index : Int} {i : Fin 16} (hi : slotIndex index = some i) (t : Slots) :
    t[index.toNat]? = some t[i] := by
  rw [slotIndex_eq_some.mp hi, Int.toNat_natCast]
  exact Vector.getElem?_eq_getElem i.isLt

/-! ### The order of the checks (R154) -/

section
variable {i : Instr} {s t : State} {r : Rejection}

/-- The first check that applies rejects the command with its code. -/
theorem exec_of_firstRejection (hf : s.block.fault = none) (hr : firstRejection i s = some r) :
    exec i s = .next (reject r s) := by
  cases i with
  | encode base limit access gran => cases hr
  | fmtreg addr => cases hr
  | init =>
    simp only [firstRejection] at hr
    split_ifs at hr with hp
    cases hr
    exact execInit_reinit hf hp
  | install index base limit access gran =>
    simp only [firstRejection] at hr
    split_ifs at hr with hp hi <;> cases hr
    · exact execInstall_notAlloc index base limit access gran hf hp
    · exact execInstall_badIndex base limit access gran hf hp (slotIndex_eq_none.mpr (mt inRange_iff_lt.mp hi))
  | readslot index =>
    simp only [firstRejection] at hr
    split_ifs at hr with hp hi he <;> cases hr
    · exact execReadslot_notAlloc index hf hp
    · obtain ⟨k, hk⟩ := exists_slotIndex (inRange_iff_lt.mpr hi)
      rw [slots_getElem?_of_slotIndex hk, Option.some.injEq] at he
      exact execReadslot_unwritten hf hp hk he
    · exact execReadslot_badIndex hf hp (slotIndex_eq_none.mpr (mt inRange_iff_lt.mp hi))
  | load codeSel dataSel tlsSel =>
    simp only [firstRejection] at hr
    split_ifs at hr with hp
    cases hr
    exact execLoad_notAlloc codeSel dataSel tlsSel hf hp
  | reserved110 => cases hr; exact whenRunning_of_running hf
  | reserved111 => cases hr; exact whenRunning_of_running hf

/-- A command is rejected by the first check that applies and by nothing else. -/
theorem firstRejection_of_rejected {res : List Byte} (h : exec i s = .next t)
    (hr : t.resp = some ⟨.rejected r, res⟩) : firstRejection i s = some r := by
  cases i with
  | encode base limit access gran => obtain ⟨-, rfl⟩ := execEncode_next h; cases hr
  | fmtreg addr => obtain ⟨-, -, rfl⟩ := execFmtreg_next h; cases hr
  | init =>
    obtain ⟨-, ⟨hp, rfl⟩ | ⟨-, a, -, rfl⟩⟩ := execInit_next h
    · cases hr
      exact if_neg hp
    · obtain hfail | ⟨ta, ra, rfl⟩ := initWith_cases a (takeAlloc s)
      · rw [hfail] at hr; cases hr
      · cases hr
  | install index base limit access gran =>
    obtain ⟨-, ⟨hp, rfl⟩ | ⟨hp, hi, rfl⟩ | ⟨-, k, ta, -, -, -, rfl⟩⟩ := execInstall_next h <;> cases hr
    · exact if_pos hp
    · exact (if_neg hp).trans (if_neg (mt inRange_iff_lt.mpr hi))
  | readslot index =>
    obtain ⟨-, ⟨hp, rfl⟩ | ⟨hp, hi, rfl⟩ | ⟨hp, k, hk, he, rfl⟩ | ⟨-, k, e, -, -, rfl⟩⟩ := execReadslot_next h <;>
      cases hr
    · exact if_pos hp
    · exact (if_neg hp).trans (if_neg (mt inRange_iff_lt.mpr hi))
    · have hslot : s.block.slots[index.toNat]? = some none := by rw [slots_getElem?_of_slotIndex hk, he]
      simp only [firstRejection, if_neg hp, if_pos (slotIndex_eq_some_lt hk), if_pos hslot]
  | load codeSel dataSel tlsSel =>
    obtain ⟨-, ⟨hp, rfl⟩ | ⟨-, ra, g, -, -, rfl⟩⟩ := execLoad_next h
    · cases hr
      exact if_pos hp
    · obtain ⟨-, hload⟩ | ⟨k, -, hload⟩ := loadWith_cases ra g codeSel dataSel tlsSel s
      · rw [hload] at hr; cases hr
      · rw [hload] at hr; cases hr
  | reserved110 => obtain ⟨-, rfl⟩ := execReserved110_next h; cases hr; rfl
  | reserved111 => obtain ⟨-, rfl⟩ := execReserved111_next h; cases hr; rfl

theorem phase_of_firstRejection_init (h : firstRejection .init s = none) : s.block.phase = .uninit := by
  simpa [firstRejection] using h

theorem phase_of_firstRejection_load {c d ts : Selector} (h : firstRejection (.load c d ts) s = none) :
    s.block.phase ≠ .uninit := by
  simpa [firstRejection] using h

/-! ### What a response tells of the step (R151) -/

theorem Effect.of_rejected {res : List Byte} (he : Effect i s t) (hr : t.resp = some ⟨.rejected r, res⟩) :
    t = reject r s := by
  cases he with
  | rejected r' h => subst h; cases hr; rfl
  | _ => subst_vars; cases hr

theorem Effect.of_eAlloc {res : List Byte} (he : Effect i s t) (hr : t.resp = some ⟨.fatal .eAlloc, res⟩) :
    i = .init ∧ t = raise .eAlloc (takeAlloc s) := by
  cases he with
  | allocFailed hi hp h => exact ⟨hi, h⟩
  | _ => subst_vars; cases hr

theorem Effect.of_eCpu {k : Fin 6} {res : List Byte} (he : Effect i s t)
    (hr : t.resp = some ⟨.fatal (.eCpu k), res⟩) :
    ∃ c d ts ra g, i = .load c d ts ∧ s.block.regAddr = some ra ∧ s.block.gdtrRec = some g ∧
      verdictAnswer s (loadSeq s.cfg ra g c d ts) = .fault k ∧
      t = loadFaulted (loadSeq s.cfg ra g c d ts) k (takeVerdict s) := by
  cases he with
  | faulted c d ts ra g k' hi hp hra hg hv h =>
    subst h
    cases hr
    exact ⟨c, d, ts, ra, g, hi, hra, hg, hv, rfl⟩
  | _ => subst_vars; cases hr

/-- An INIT that answers E_ALLOC had Fail for one of its requests. -/
theorem execInit_eAlloc {res : List Byte} (h : execInit s = .next t) (hr : t.resp = some ⟨.fatal .eAlloc, res⟩) :
    ∃ a, allocAnswer s = some a ∧ (a.table = none ∨ a.reg = none) := by
  obtain ⟨-, ⟨-, rfl⟩ | ⟨-, a, ha, rfl⟩⟩ := execInit_next h
  · cases hr
  · refine ⟨a, ha, ?_⟩
    obtain ⟨_ | ta, reg⟩ := a
    · exact .inl rfl
    · obtain _ | ra := reg
      · exact .inr rfl
      · cases hr

end

/-- Settles O21: the response tells the effect, a fatal fault's next state has FAULT set, and `exec_of_fault` is the
halt. -/
theorem rejectionsAndFaultsWriteOnlyTheirOwn : Obligations.RejectionsAndFaultsWriteOnlyTheirOwn := by
  intro i s t h
  obtain ⟨-, he⟩ := exec_next h
  refine ⟨fun r res hr => ?rejected, fun res hr => ?eAlloc, fun k res hr => ?eCpu⟩
  case rejected => rw [he.of_rejected hr, reject_eq_rejectedState]
  case eAlloc =>
    obtain ⟨-, rfl⟩ := he.of_eAlloc hr
    cases hr
    exact ⟨rfl, rfl, rfl, fun _ => exec_of_fault (Option.some_ne_none _)⟩
  case eCpu =>
    obtain ⟨c, d, ts, ra, g, -, -, -, -, rfl⟩ := he.of_eCpu hr
    cases hr
    exact ⟨rfl, rfl, _, rfl, fun _ => exec_of_fault (Option.some_ne_none _)⟩

/-- Settles O23: the checks of `firstRejection` decide first; where none applies INIT turns on the allocator's answers
and LOAD on the verdict. -/
theorem checksApplyInPriorityOrder : Obligations.ChecksApplyInPriorityOrder := by
  intro i s
  simp only [← reject_eq_rejectedState, ← loadSeq_eq_loadEvents]
  refine ⟨exec_of_fault, fun hf _ => exec_of_firstRejection hf, fun hf hnone t h => ?_⟩
  obtain ⟨-, he⟩ := exec_next h
  refine ⟨fun r res hr => ?_, ⟨fun hr => ?_, ?_⟩, fun k => ⟨fun hr => ?_, ?_⟩⟩
  · cases hnone.symm.trans (firstRejection_of_rejected h hr)
  · obtain ⟨rfl, -⟩ := he.of_eAlloc hr
    exact ⟨rfl, execInit_eAlloc h hr⟩
  · rintro ⟨rfl, a, ha, hfail⟩
    cases h.symm.trans (execInit_answered hf (phase_of_firstRejection_init hnone) ha)
    rw [initWith_fail _ hfail, raise_resp]
  · obtain ⟨c, d, ts, ra, g, hi, hra, hg, hv, -⟩ := he.of_eCpu hr
    exact ⟨c, d, ts, ra, g, hi, hra, hg, hv⟩
  · rintro ⟨c, d, ts, ra, g, rfl, hra, hg, hv⟩
    cases h.symm.trans (execLoad_issued c d ts hf (phase_of_firstRejection_load hnone) hra hg)
    rw [loadWith_fault c d ts hv]
    rfl

/-! ### The status codes of each command (R152) -/

/-- The codes of each OP's row, path by path of its command. -/
theorem exec_status_mem {i : Instr} {s t : State} (h : exec i s = .next t) :
    ∃ r, t.resp = some r ∧ statusCode r.status ∈ possibleCodes (encode i).op := by
  cases i with
  | encode base limit access gran =>
    obtain ⟨-, rfl⟩ := execEncode_next h
    exact ⟨_, rfl, (by decide : 0#3 ∈ possibleCodes 0b000#3)⟩
  | fmtreg addr =>
    obtain ⟨-, -, rfl⟩ := execFmtreg_next h
    exact ⟨_, rfl, (by decide : 0#3 ∈ possibleCodes 0b001#3)⟩
  | init =>
    obtain ⟨-, ⟨-, rfl⟩ | ⟨-, a, -, rfl⟩⟩ := execInit_next h
    · exact ⟨_, rfl, (by decide : 5#3 ∈ possibleCodes 0b010#3)⟩
    · obtain hfail | ⟨ta, ra, rfl⟩ := initWith_cases a (takeAlloc s)
      · rw [hfail]
        exact ⟨_, rfl, (by decide : 1#3 ∈ possibleCodes 0b010#3)⟩
      · exact ⟨_, rfl, (by decide : 0#3 ∈ possibleCodes 0b010#3)⟩
  | install index base limit access gran =>
    obtain ⟨-, ⟨-, rfl⟩ | ⟨-, -, rfl⟩ | ⟨-, k, ta, -, -, -, rfl⟩⟩ := execInstall_next h
    · exact ⟨_, rfl, (by decide : 4#3 ∈ possibleCodes 0b011#3)⟩
    · exact ⟨_, rfl, (by decide : 6#3 ∈ possibleCodes 0b011#3)⟩
    · exact ⟨_, rfl, (by decide : 0#3 ∈ possibleCodes 0b011#3)⟩
  | readslot index =>
    obtain ⟨-, ⟨-, rfl⟩ | ⟨-, -, rfl⟩ | ⟨-, k, -, -, rfl⟩ | ⟨-, k, e, -, -, rfl⟩⟩ := execReadslot_next h
    · exact ⟨_, rfl, (by decide : 4#3 ∈ possibleCodes 0b100#3)⟩
    · exact ⟨_, rfl, (by decide : 6#3 ∈ possibleCodes 0b100#3)⟩
    · exact ⟨_, rfl, (by decide : 7#3 ∈ possibleCodes 0b100#3)⟩
    · exact ⟨_, rfl, (by decide : 0#3 ∈ possibleCodes 0b100#3)⟩
  | load codeSel dataSel tlsSel =>
    obtain ⟨-, ⟨-, rfl⟩ | ⟨-, ra, g, -, -, rfl⟩⟩ := execLoad_next h
    · exact ⟨_, rfl, (by decide : 4#3 ∈ possibleCodes 0b101#3)⟩
    · obtain ⟨-, hload⟩ | ⟨k, -, hload⟩ := loadWith_cases ra g codeSel dataSel tlsSel s <;> rw [hload]
      · exact ⟨_, rfl, (by decide : 0#3 ∈ possibleCodes 0b101#3)⟩
      · exact ⟨_, rfl, (by decide : 2#3 ∈ possibleCodes 0b101#3)⟩
  | reserved110 =>
    obtain ⟨-, rfl⟩ := execReserved110_next h
    exact ⟨_, rfl, (by decide : 3#3 ∈ possibleCodes 0b110#3)⟩
  | reserved111 =>
    obtain ⟨-, rfl⟩ := execReserved111_next h
    exact ⟨_, rfl, (by decide : 3#3 ∈ possibleCodes 0b111#3)⟩

/-- Some command of the OP, in some state, answers the code. -/
def Answerable (op c : BitVec 3) : Prop :=
  ∃ (i : Instr) (s t : State) (r : Response),
    (encode i).op = op ∧ exec i s = .next t ∧ t.resp = some r ∧ statusCode r.status = c

/-- The reset machine with the allocator's and the CPU's next answers known. -/
def offered (a : AllocPair) (v : Verdict) : State := { State.reset with env := ⟨[a], [v], 0⟩ }

/-- The machine after its first INIT, the table at 0 and the register record behind it. -/
def tableReady (v : Verdict) : State := initWith ⟨some 0, some 128⟩ (takeAlloc (offered ⟨some 0, some 128⟩ v))

theorem exec_init_offered (v : Verdict) : exec .init (offered ⟨some 0, some 128⟩ v) = .next (tableReady v) := rfl

/-- The machine after its first INSTALL, of slot 0. -/
def slotReady : State := accept [] (installAt 0 0 (encodeEntry 0 0 0 0) (tableReady .ok))

theorem exec_install_tableReady : exec (.install 0 0 0 0 0) (tableReady .ok) = .next slotReady := rfl

theorem init_answerable : Answerable 2#3 0#3 ∧ Answerable 2#3 1#3 ∧ Answerable 2#3 5#3 :=
  ⟨⟨.init, offered ⟨some 0, some 128⟩ .ok, tableReady .ok, _, rfl, exec_init_offered .ok, rfl, rfl⟩,
    ⟨.init, offered ⟨none, none⟩ .ok, _, _, rfl, rfl, rfl, rfl⟩,
    ⟨.init, tableReady .ok, _, _, rfl, rfl, rfl, rfl⟩⟩

theorem install_answerable : Answerable 3#3 0#3 ∧ Answerable 3#3 4#3 ∧ Answerable 3#3 6#3 :=
  ⟨⟨.install 0 0 0 0 0, tableReady .ok, slotReady, _, rfl, exec_install_tableReady, rfl, rfl⟩,
    ⟨.install 0 0 0 0 0, State.reset, _, _, rfl, rfl, rfl, rfl⟩,
    ⟨.install 16 0 0 0 0, tableReady .ok, _, _, rfl, rfl, rfl, rfl⟩⟩

theorem readslot_answerable :
    Answerable 4#3 0#3 ∧ Answerable 4#3 4#3 ∧ Answerable 4#3 6#3 ∧ Answerable 4#3 7#3 :=
  ⟨⟨.readslot 0, slotReady, _, _, rfl, rfl, rfl, rfl⟩,
    ⟨.readslot 0, State.reset, _, _, rfl, rfl, rfl, rfl⟩,
    ⟨.readslot 16, slotReady, _, _, rfl, rfl, rfl, rfl⟩,
    ⟨.readslot 15, slotReady, _, _, rfl, rfl, rfl, rfl⟩⟩

theorem load_answerable : Answerable 5#3 0#3 ∧ Answerable 5#3 2#3 ∧ Answerable 5#3 4#3 :=
  ⟨⟨.load 8 16 24, tableReady .ok, _, _, rfl, rfl, rfl, rfl⟩,
    ⟨.load 8 16 24, tableReady (.fault 0), _, _, rfl, rfl, rfl, rfl⟩,
    ⟨.load 8 16 24, State.reset, _, _, rfl, rfl, rfl, rfl⟩⟩

/-- No code stands in R152's table in vain. -/
theorem answerable_of_mem_possibleCodes (op : BitVec 3) : ∀ c ∈ possibleCodes op, Answerable op c := by
  obtain rfl | rfl | rfl | rfl | rfl | rfl | rfl | rfl := op_cases op
  · exact List.forall_mem_singleton.mpr ⟨.encode 0 0 0 0, State.reset, _, _, rfl, rfl, rfl, rfl⟩
  · exact List.forall_mem_singleton.mpr ⟨.fmtreg 0, State.reset, _, _, rfl, rfl, rfl, rfl⟩
  · simpa [possibleCodes] using init_answerable
  · simpa [possibleCodes] using install_answerable
  · simpa [possibleCodes] using readslot_answerable
  · simpa [possibleCodes] using load_answerable
  · exact List.forall_mem_singleton.mpr ⟨.reserved110, State.reset, _, _, rfl, rfl, rfl, rfl⟩
  · exact List.forall_mem_singleton.mpr ⟨.reserved111, State.reset, _, _, rfl, rfl, rfl, rfl⟩

/-- Settles O22, R152's table both ways. -/
theorem statusCodesOfEachCommand : Obligations.StatusCodesOfEachCommand :=
  ⟨fun _ _ _ => exec_status_mem, answerable_of_mem_possibleCodes⟩

end Sys2Proof.Machine

/-! Reset and hazards of 70_reset_and_hazards.md. SLOT and ACTIVE after a LOAD: an INSTALL writes the one and keeps the
other, and the next LOAD that answers OK takes the copy (R175); and what a block that is in UNINIT does (R171). -/

namespace Sys2Proof.Machine

/-! ### SLOT, the table region and ACTIVE (R175) -/

/-- An INSTALL taken outside UNINIT at an index of the table wrote the slot's record at TABLE_ADDR. -/
theorem execInstall_inRange_tableAddr {i : Fin 16} {b l : Nat} {a g : Byte} {s t : State}
    (hp : s.block.phase ≠ .uninit) (h : execInstall (i.val : Int) b l a g s = .next t) :
    ∃ ta, s.block.tableAddr = some ta ∧ t = accept [] (installAt ta i (encodeEntry b l a g) s) := by
  have hi : slotIndex (i.val : Int) = some i := slotIndex_eq_some.mpr rfl
  obtain ⟨-, ⟨huninit, -⟩ | ⟨-, hout, -⟩ | ⟨-, j, ta, hj, hta, -, ht⟩⟩ := execInstall_next h
  · exact absurd huninit hp
  · cases hi.symm.trans (slotIndex_eq_none.mpr hout)
  · cases hi.symm.trans hj
    exact ⟨ta, hta, ht⟩

/-- A LOAD that answers OK leaves in ACTIVE the copy of the SLOT it found. -/
theorem execLoad_ok_snap {codeSel dataSel tlsSel : Selector} {s t : State} {bs : List Byte}
    (h : execLoad codeSel dataSel tlsSel s = .next t) (hr : t.resp = some ⟨.ok, bs⟩) :
    ∃ act, t.block.active = some act ∧ act.snap = s.block.slots := by
  obtain ⟨ra, g, -, -, rfl⟩ := execLoad_ok h hr
  exact ⟨_, rfl, rfl⟩

/-- Settles O16: LOAD alone writes ACTIVE, and what it copies is the SLOT that INSTALL left. -/
theorem onlyLoadRefreshesActive : Obligations.OnlyLoadRefreshesActive := by
  refine ⟨fun i s t h hne => ?_, fun s t u i b l a g c d ts hp h => ?_⟩
  · obtain ⟨-, he⟩ := exec_next h
    exact he.active_writers.resolve_right fun ⟨c, d, ts, hi⟩ => hne c d ts hi
  · obtain ⟨ta, hta, rfl⟩ := execInstall_inRange_tableAddr hp h
    exact ⟨rfl, rfl, ⟨ta, hta, installAt_read_slot ta i _ s⟩, execLoad_ok_snap⟩

/-! ### The block in UNINIT (R171) -/

/-- With nothing presented a running block waits (log entry 3). -/
theorem step_idle {s : State} (hq : s.pending = []) (hf : s.block.fault = none) : step s = .next s := by
  simp only [step, fetch, hq, if_pos hf]

/-- INIT on the allocator's answers sets up the table, or one of them was Fail. -/
theorem initWith_outcomes (a : AllocPair) (s : State) :
    ((initWith a s).resp = some ⟨.ok, []⟩ ∧ (initWith a s).block.phase = .allocated) ∨
      ((initWith a s).resp = some ⟨.fatal .eAlloc, []⟩ ∧ (initWith a s).block.fault = some .eAlloc) := by
  obtain hfail | ⟨ta, ra, rfl⟩ := initWith_cases a s
  · rw [hfail]
    exact .inr ⟨rfl, rfl⟩
  · exact .inl ⟨rfl, rfl⟩

/-- Settles O31, command by command. -/
theorem uninitBlockBehaviour : Obligations.UninitBlockBehaviour := by
  intro s hp hf
  simp only [← reject_eq_rejectedState]
  refine ⟨fun b l a g => ⟨_, _, whenRunning_of_running hf, rfl⟩,
    fun addr haddr => ⟨_, _, execFmtreg_fits hf haddr, rfl⟩, fun hanswer => ?_,
    fun x b l a g => execInstall_notAlloc x b l a g hf hp, fun x => execReadslot_notAlloc x hf hp,
    fun c d ts => execLoad_notAlloc c d ts hf hp, fun hq => step_idle hq hf⟩
  obtain ⟨a, ha⟩ := Option.ne_none_iff_exists'.mp hanswer
  exact ⟨_, execInit_answered hf hp ha, initWith_outcomes a (takeAlloc s)⟩

end Sys2Proof.Machine
